-- ==== Sys2Proof/Word.lean ====
section
/-! DEFINITION. The value types of BCDEC: bytes, blocks, packed colours, pixels and tiles (spec 00_scope.md R9 to R13). -/

namespace Sys2Proof

/-- An 8-bit value: one byte of `M`, one channel of a pixel, one byte of a block. -/
abbrev Byte := BitVec 8

/-- The 128-bit `blk` field of a command; block byte 0 is its least significant byte (R60, R61). -/
abbrev Block := BitVec 128

/-- A packed R5G6B5 colour (R80). -/
abbrev Packed565 := BitVec 16

/-- The three 8-bit channels of an expanded colour (R81). -/
structure Rgb where
  r : Byte
  g : Byte
  b : Byte
  deriving DecidableEq, Repr

/-- A pixel `(R, G, B, A)` (R13). -/
structure Pixel where
  r : Byte
  g : Byte
  b : Byte
  a : Byte
  deriving DecidableEq, Repr

/-- `tile row col`: a 4x4 array of pixels (R13). It is a transient value of a command (R29), never part of State. -/
abbrev Tile := Fin 4 → Fin 4 → Pixel

/-- The four values of a row number or a column number, in order (R13). -/
def quad : List (Fin 4) := [0, 1, 2, 3]

end Sys2Proof
end

