-- ==== Sys2Proof/Config.lean ====
section
/-! DEFINITION. The parameters of a BCDEC (spec 00_scope.md R7, R8) and the values the spec leaves free (spec 93_implementation_defined.md section 1). -/

namespace Sys2Proof

/-- The parameters a BCDEC is built with (R7): `aw` is AW, `sw` is SW.
N_UNITS is the number of register sets in State; LATENCY is not observable (R178). -/
structure Params where
  aw : Nat
  sw : Nat
  deriving DecidableEq, Repr

/-- The ranges of R7 and R8: `8 <= AW <= 64` and `5 <= SW <= 64`. -/
abbrev Params.Legal (p : Params) : Prop := (8 ≤ p.aw ∧ p.aw ≤ 64) ∧ (5 ≤ p.sw ∧ p.sw ≤ 64)

/-- The number of bytes of the destination memory, `2^AW` (R27). -/
def Params.memSize (p : Params) : Nat := 2 ^ p.aw

/-- The number of bits of a command, `132 + AW + SW` (30_encoding.md R60). -/
def Params.cmdBits (p : Params) : Nat := 132 + p.aw + p.sw

/-- The configuration of the spec's test vectors, `AW = SW = 16` (R7). DESIGN CHOICE (log 1): State.reset has it. -/
def Params.vectors : Params := { aw := 16, sw := 16 }

namespace Config

/-- FREE VALUE (log 5): what a byte of `M` holds at power-up, by address (10_state.md R31, "any value"). -/
opaque powerUpByte : Nat → Byte

/-- FREE VALUE (log 7): what a window byte holds after a reset that abandons a decode, by draw number and address
(70_reset_and_hazards.md R170, "any byte value for each of them independently"). -/
opaque resetByte : Nat → Nat → Byte

/-- FREE VALUE (log 8): whether a byte shared by two windows in flight keeps the other unit's value, by draw number and
address (60_exceptions.md R162, "both values for each shared byte independently"). -/
opaque raceKeeps : Nat → Nat → Bool

end Config

end Sys2Proof
end

