-- ==== Sys2Proof/Syntax.lean ====
section
/-! DEFINITION. The sixteen commands of BCDEC, one constructor per row of spec/opcode_table.json (spec 30_encoding.md R62). -/

namespace Sys2Proof

/-- A command. Every constructor carries the three operand fields of `CMD` (R60), the ones its operation ignores too,
so that no bit of a command is lost (R64, R66, R67; log 13). `dst` and `stride` are unsigned numbers, because every
rule computes with them on unbounded integers (R44, R152; log 17); their widths are checked by `Instr.WellFormed`. -/
inductive Instr where
  | decBc1 (blk : Block) (dst stride : Nat)
  | decBc1a (blk : Block) (dst stride : Nat)
  | reserved2 (blk : Block) (dst stride : Nat)
  | decBc3 (blk : Block) (dst stride : Nat)
  | expand565 (blk : Block) (dst stride : Nat)
  | cpalBc1 (blk : Block) (dst stride : Nat)
  | cpalBc1a (blk : Block) (dst stride : Nat)
  | cpal4c (blk : Block) (dst stride : Nat)
  | apal (blk : Block) (dst stride : Nat)
  | reserved9 (blk : Block) (dst stride : Nat)
  | reservedA (blk : Block) (dst stride : Nat)
  | reservedB (blk : Block) (dst stride : Nat)
  | reservedC (blk : Block) (dst stride : Nat)
  | reservedD (blk : Block) (dst stride : Nat)
  | reservedE (blk : Block) (dst stride : Nat)
  | reservedF (blk : Block) (dst stride : Nat)
  deriving DecidableEq, Repr

/-- The `blk` field of a command (R60). -/
def Instr.blk : Instr → Block
  | .decBc1 blk _ _ => blk
  | .decBc1a blk _ _ => blk
  | .reserved2 blk _ _ => blk
  | .decBc3 blk _ _ => blk
  | .expand565 blk _ _ => blk
  | .cpalBc1 blk _ _ => blk
  | .cpalBc1a blk _ _ => blk
  | .cpal4c blk _ _ => blk
  | .apal blk _ _ => blk
  | .reserved9 blk _ _ => blk
  | .reservedA blk _ _ => blk
  | .reservedB blk _ _ => blk
  | .reservedC blk _ _ => blk
  | .reservedD blk _ _ => blk
  | .reservedE blk _ _ => blk
  | .reservedF blk _ _ => blk

/-- The `dst` field of a command (R60). -/
def Instr.dst : Instr → Nat
  | .decBc1 _ dst _ => dst
  | .decBc1a _ dst _ => dst
  | .reserved2 _ dst _ => dst
  | .decBc3 _ dst _ => dst
  | .expand565 _ dst _ => dst
  | .cpalBc1 _ dst _ => dst
  | .cpalBc1a _ dst _ => dst
  | .cpal4c _ dst _ => dst
  | .apal _ dst _ => dst
  | .reserved9 _ dst _ => dst
  | .reservedA _ dst _ => dst
  | .reservedB _ dst _ => dst
  | .reservedC _ dst _ => dst
  | .reservedD _ dst _ => dst
  | .reservedE _ dst _ => dst
  | .reservedF _ dst _ => dst

/-- The `stride` field of a command (R60). -/
def Instr.stride : Instr → Nat
  | .decBc1 _ _ stride => stride
  | .decBc1a _ _ stride => stride
  | .reserved2 _ _ stride => stride
  | .decBc3 _ _ stride => stride
  | .expand565 _ _ stride => stride
  | .cpalBc1 _ _ stride => stride
  | .cpalBc1a _ _ stride => stride
  | .cpal4c _ _ stride => stride
  | .apal _ _ stride => stride
  | .reserved9 _ _ stride => stride
  | .reservedA _ _ stride => stride
  | .reservedB _ _ stride => stride
  | .reservedC _ _ stride => stride
  | .reservedD _ _ stride => stride
  | .reservedE _ _ stride => stride
  | .reservedF _ _ stride => stride

/-- The decode class of R62: the three operations that use `dst` and `stride` and write `M`. -/
def Instr.isDecode : Instr → Bool
  | .decBc1 _ _ _ => true
  | .decBc1a _ _ _ => true
  | .reserved2 _ _ _ => false
  | .decBc3 _ _ _ => true
  | .expand565 _ _ _ => false
  | .cpalBc1 _ _ _ => false
  | .cpalBc1a _ _ _ => false
  | .cpal4c _ _ _ => false
  | .apal _ _ _ => false
  | .reserved9 _ _ _ => false
  | .reservedA _ _ _ => false
  | .reservedB _ _ _ => false
  | .reservedC _ _ _ => false
  | .reservedD _ _ _ => false
  | .reservedE _ _ _ => false
  | .reservedF _ _ _ => false

/-- The reserved rows of R62 and R68. -/
def Instr.isReserved : Instr → Bool
  | .decBc1 _ _ _ => false
  | .decBc1a _ _ _ => false
  | .reserved2 _ _ _ => true
  | .decBc3 _ _ _ => false
  | .expand565 _ _ _ => false
  | .cpalBc1 _ _ _ => false
  | .cpalBc1a _ _ _ => false
  | .cpal4c _ _ _ => false
  | .apal _ _ _ => false
  | .reserved9 _ _ _ => true
  | .reservedA _ _ _ => true
  | .reservedB _ _ _ => true
  | .reservedC _ _ _ => true
  | .reservedD _ _ _ => true
  | .reservedE _ _ _ => true
  | .reservedF _ _ _ => true

end Sys2Proof
end

