-- ==== Sys2Proof/WellFormed.lean ====
section
/-! DEFINITION. The well-formed commands: the operand values the fields of `CMD` can hold (spec 30_encoding.md R60). -/

namespace Sys2Proof

/-- The `dst` field has AW bits and the `stride` field has SW bits (R60); `blk` has 128 by its type.
No other check: no value of `blk`, `dst` or `stride` makes a command illegal (R73). -/
abbrev Instr.WellFormed (p : Params) (i : Instr) : Prop := i.dst < 2 ^ p.aw ∧ i.stride < 2 ^ p.sw

end Sys2Proof
end

