-- ==== Sys2Proof/Decode.lean ====
section
/-! DEFINITION. Decoding and encoding of `CMD` (spec 30_encoding.md R60 to R62, R73): total on every number, rejecting by name. -/

namespace Sys2Proof

/-- Why a number is no command. `tooWide`: it does not fit the `132 + AW + SW` bits of `CMD` (R60, R69).
The `op` field is never a reason: each of its 16 values selects a row (R73). -/
inductive DecodeReject where
  | tooWide
  deriving DecidableEq, Repr

/-- `CMD[3:0]` (R60). -/
def cmdOp (w : Nat) : BitVec 4 := BitVec.ofNat 4 w

/-- `CMD[131:4]` (R60). -/
def cmdBlk (w : Nat) : Block := BitVec.ofNat 128 (w / 2 ^ 4)

/-- `CMD[131+AW:132]` (R60). -/
def cmdDst (p : Params) (w : Nat) : Nat := w / 2 ^ 132 % 2 ^ p.aw

/-- `CMD[131+AW+SW:132+AW]` (R60). -/
def cmdStride (p : Params) (w : Nat) : Nat := w / 2 ^ (132 + p.aw) % 2 ^ p.sw

/-- The opcode map of R62: row `k` is the operation that `op = k` selects. -/
def opcodeMap : Vector (Block → Nat → Nat → Instr) 16 :=
  #v[.decBc1, .decBc1a, .reserved2, .decBc3, .expand565, .cpalBc1, .cpalBc1a, .cpal4c,
     .apal, .reserved9, .reservedA, .reservedB, .reservedC, .reservedD, .reservedE, .reservedF]

/-- The decoder (R60, R62, R73). -/
def decode (p : Params) (w : Nat) : Except DecodeReject Instr :=
  if w < 2 ^ p.cmdBits then
    .ok (opcodeMap.get (cmdOp w).toFin (cmdBlk w) (cmdDst p w) (cmdStride p w))
  else
    .error .tooWide

/-- The `op` value of a command, the "match" column of opcode_table.json (R62). -/
def Instr.op : Instr → BitVec 4
  | .decBc1 _ _ _ => 0x0#4
  | .decBc1a _ _ _ => 0x1#4
  | .reserved2 _ _ _ => 0x2#4
  | .decBc3 _ _ _ => 0x3#4
  | .expand565 _ _ _ => 0x4#4
  | .cpalBc1 _ _ _ => 0x5#4
  | .cpalBc1a _ _ _ => 0x6#4
  | .cpal4c _ _ _ => 0x7#4
  | .apal _ _ _ => 0x8#4
  | .reserved9 _ _ _ => 0x9#4
  | .reservedA _ _ _ => 0xA#4
  | .reservedB _ _ _ => 0xB#4
  | .reservedC _ _ _ => 0xC#4
  | .reservedD _ _ _ => 0xD#4
  | .reservedE _ _ _ => 0xE#4
  | .reservedF _ _ _ => 0xF#4

/-- The encoder: the four fields at their places in `CMD` (R60). -/
def encode (p : Params) (i : Instr) : Nat :=
  i.op.toNat + i.blk.toNat * 2 ^ 4 + i.dst * 2 ^ 132 + i.stride * 2 ^ (132 + p.aw)

/-- The instruction the decoder reads from the table's numbering of bits: `CMD` is one word, so its bit `k` is bit `k`
of `w`; every bit above `nbits` is 0. The configuration is the test vectors' (log 1, log 21). -/
def decodeTableWord (nbits w : Nat) : Option Instr :=
  match decode Params.vectors (w % 2 ^ nbits) with
  | .ok i => some i
  | .error _ => none

end Sys2Proof
end

