-- ==== Sys2Proof/Machine/State.lean ====
section
/-! DEFINITION. The state of a BCDEC system (spec 10_state.md R20 to R31, 60_exceptions.md R162), the host's events, and
the reasons a step can stop. -/

namespace Sys2Proof
namespace Machine

/-- The destination memory `M` (R27): address and byte pairs, addresses strictly rising. An address that is not listed
has no value yet: its contents are those of power-up, which the spec leaves open (R31; log 5). -/
abbrev Memory := List Host.Cell

/-- The 64 bytes of a decode with this `dst` and `stride` (20_memory.md R44). -/
structure Window where
  dst : Nat
  stride : Nat
  deriving DecidableEq, Repr

/-- The three interface registers the host can name (R20, R30). -/
inductive HostReg where
  | status
  | res
  | busy
  deriving DecidableEq, Repr

/-- What the host does to the system (00_scope.md R5, 10_state.md R30), one event a step. -/
inductive HostEvent where
  /-- One whole transaction: present `CMD` and wait for its completion (00_scope.md R4). -/
  | command (cmd : Nat)
  /-- Present `CMD`; the unit accepts it and `BUSY` rises (70_reset_and_hazards.md R173). -/
  | present (cmd : Nat)
  /-- Wait until `BUSY` is 0: the command in flight completes (R173, 60_exceptions.md R157). -/
  | await
  /-- Read one byte of `M` (R30). -/
  | readM (addr : Nat)
  /-- Write one byte of `M` (R30). -/
  | writeM (addr : Nat) (value : Byte)
  /-- Read an interface register (R30). -/
  | readReg (reg : HostReg)
  /-- Attempt to write an interface register; there is no write path (R30). -/
  | writeReg (reg : HostReg) (value : BitVec 128)
  /-- Assert the reset input of the unit (70_reset_and_hazards.md R170). -/
  | reset
  /-- Turn to another unit: it and the unit addressed so far change places (60_exceptions.md R162; log 8). -/
  | select (unit : Nat)
  deriving DecidableEq, Repr

/-- The registers of a unit that the host is not addressing (60_exceptions.md R162): the same fields as State's. -/
structure UnitRegs where
  status : BitVec 8
  res : BitVec 128
  inFlight : Option Instr
  rivals : List Nat
  deriving DecidableEq, Repr

/-- The state `(M, STATUS, RES, BUSY)` of R20, for a system of one or more units. -/
structure State where
  /-- AW and SW (00_scope.md R7); no step changes them. -/
  params : Params
  /-- `M` (R27). -/
  mem : Memory
  /-- `STATUS` (R21). -/
  status : BitVec 8
  /-- `RES` (R25). -/
  res : BitVec 128
  /-- The command accepted and not yet completed. `BUSY` (R26) is 1 exactly while there is one: `State.busy` (log 3,
  log 4). -/
  inFlight : Option Instr
  /-- MODEL FIELD (log 8): the bytes of `M` that other units wrote since this unit accepted its command
  (60_exceptions.md R162). -/
  rivals : List Nat
  /-- The other units; N_UNITS is one more than their number (60_exceptions.md R162). -/
  others : List UnitRegs
  /-- MODEL FIELD (log 2): the host's events still to come, oldest first. -/
  inputs : List HostEvent
  /-- MODEL FIELD (log 16): the data the host's last read returned. -/
  bus : BitVec 128
  /-- MODEL FIELD (log 7): the number of the next draw of free values. -/
  draws : Nat
  deriving DecidableEq, Repr

/-- Why the machine stops with a fault. No command's meaning ends in one: BCDEC reports its errors in `STATUS` and goes
on (60_exceptions.md R153, R158). -/
inductive Fault where
  /-- Raised by a host access to `M` at an address that is not `0` to `2^AW - 1` (20_memory.md R40): no such byte
  exists. Safe (log 10). -/
  | addressOutsideM
  deriving DecidableEq, Repr

/-- Why the model has no step. Each but `notModelled` is raised by a host event that the spec tells the host not to make
or that is no event of the interface; no command's meaning raises one. -/
inductive Refusal where
  /-- Raised by an arm of `exec` that has no meaning yet; no arm does. Safe. -/
  | notModelled (mnemonic : String)
  /-- Raised by presenting a number that does not fit `CMD` (30_encoding.md R60). Safe (log 11). -/
  | notACommand
  /-- Raised by presenting a command while `BUSY = 1` (70_reset_and_hazards.md R174: "The model has no step for such a
  presentation"). Safe (log 9). -/
  | commandWhileBusy
  /-- Raised by a host read or write of a window byte while its decode is in flight (70_reset_and_hazards.md R175: "The
  model has no step for either"). Safe (log 9). -/
  | windowAccessWhileBusy
  /-- Raised by turning to a unit the system does not have (60_exceptions.md R162). Safe (log 8). -/
  | noSuchUnit
  deriving DecidableEq, Repr

/-- `BUSY` (R26): 1 from the acceptance of a command until its completion. -/
def State.busy (s : State) : BitVec 1 := BitVec.ofBool s.inFlight.isSome

/-- The registers of a unit after reset (R31). -/
def UnitRegs.reset : UnitRegs := { status := 0, res := 0, inFlight := none, rivals := [] }

/-- The system after reset (R31, 70_reset_and_hazards.md R171), for any parameters and any number of further units:
`STATUS`, `RES` and `BUSY` are 0 and `M` is as power-up left it. -/
def State.resetWith (p : Params) (furtherUnits : Nat) : State :=
  { params := p, mem := [], status := 0, res := 0, inFlight := none, rivals := [],
    others := List.replicate furtherUnits UnitRegs.reset, inputs := [], bus := 0, draws := 0 }

/-- The system after reset in the configuration of the spec's vectors: AW = SW = 16, one unit (R7; log 1). -/
def State.reset : State := State.resetWith Params.vectors 0

end Machine
end Sys2Proof
end

