-- ==== Sys2Proof/Machine/Flags.lean ====
section
/-! DEFINITION. The layout of `STATUS` and its completion codes (spec 10_state.md R21 to R24). -/

namespace Sys2Proof
namespace Machine

/-- The completion codes of `STATUS.ERR` (R22). -/
inductive ErrCode where
  | ok
  | illegalOp
  | badStride
  | dstRange
  deriving DecidableEq, Repr

/-- The two bits of a completion code (R22). -/
def ErrCode.bits : ErrCode → BitVec 2
  | .ok => 0b00#2
  | .illegalOp => 0b01#2
  | .badStride => 0b10#2
  | .dstRange => 0b11#2

/-- `STATUS <- {00000, premul, err}` (00_scope.md R15, R21). -/
def statusWord (err : ErrCode) (premul : Bool) : BitVec 8 := 0#5 ++ BitVec.ofBool premul ++ err.bits

/-- `STATUS.ERR`, bits [1:0] (R21). -/
def statusErr (status : BitVec 8) : BitVec 2 := status.extractLsb' 0 2

/-- `STATUS.PREMUL`, bit [2] (R21). -/
def statusPremul (status : BitVec 8) : Bool := status.getLsbD 2

/-- `STATUS[7:3]`, reserved (R24). -/
def statusReserved (status : BitVec 8) : BitVec 5 := status.extractLsb' 3 5

end Machine
end Sys2Proof
end

