-- ==== Sys2Proof/Machine/Operands.lean ====
section
/-! DEFINITION. Operand assembly from a block (spec 30_encoding.md R61, R63 to R66) and the packing of results into `RES`. -/

namespace Sys2Proof
namespace Machine

/-- `B[i] = blk[8i+7 : 8i]` (R61). -/
def blockByte (blk : Block) (i : Nat) : Byte := blk.extractLsb' (8 * i) 8

/-- `LE16(i)` (R63). -/
def le16 (blk : Block) (i : Nat) : BitVec 16 := blockByte blk (i + 1) ++ blockByte blk i

/-- `LE32(i)` (R63). -/
def le32 (blk : Block) (i : Nat) : BitVec 32 :=
  blockByte blk (i + 3) ++ blockByte blk (i + 2) ++ blockByte blk (i + 1) ++ blockByte blk i

/-- `LE48(i)` (R63). -/
def le48 (blk : Block) (i : Nat) : BitVec 48 :=
  blockByte blk (i + 5) ++ blockByte blk (i + 4) ++ blockByte blk (i + 3) ++ blockByte blk (i + 2) ++
    blockByte blk (i + 1) ++ blockByte blk i

/-- `W((R, G, B, A)) = {A, B, G, R}` (41_bc1.md R100): the little-endian word of a pixel in `M` (20_memory.md R43). -/
def pixelWord (x : Pixel) : BitVec 32 := x.a ++ x.b ++ x.g ++ x.r

/-- `zext_128({b8, g8, r8})` (40_rgb565.md R84). -/
def packRgb (x : Rgb) : BitVec 128 := (x.b ++ x.g ++ x.r).setWidth 128

/-- `{W(P3), W(P2), W(P1), W(P0)}` (41_bc1.md R100). -/
def packColours (P : Vector Pixel 4) : BitVec 128 :=
  pixelWord P[3] ++ pixelWord P[2] ++ pixelWord P[1] ++ pixelWord P[0]

/-- `zext_128({A[7], …, A[0]})` (42_dxt5_alpha.md R125). -/
def packAlphas (A : Vector Byte 8) : BitVec 128 :=
  (A[7] ++ A[6] ++ A[5] ++ A[4] ++ A[3] ++ A[2] ++ A[1] ++ A[0]).setWidth 128

end Machine
end Sys2Proof
end

