-- ==== Sys2Proof/Machine/Ops.lean ====
section
/-! DEFINITION. The operations commands share: bytes of `M`, the tile write, the checks of a decode, completing a command
and raising an error (spec 00_scope.md R15, 20_memory.md R40 to R49, 60_exceptions.md R150 to R154). -/

namespace Sys2Proof
namespace Machine

/-- The canonical form of a memory: addresses strictly rising. An unlisted address has no value (log 5), so no listed
byte can equal it. -/
abbrev Memory.wf (m : Memory) : Prop := m.Pairwise (fun x y => x.1 < y.1)

/-- Byte `a` of the memory, none where nothing was written since power-up (log 5). The unit never calls it (R41). -/
def Memory.read : Memory → Nat → Option Byte
  | [], _ => none
  | (b, w) :: m, a => if a = b then some w else Memory.read m a

/-- `MemWrite(a, 1, v)` (00_scope.md R15), keeping the addresses in order. -/
def Memory.write : Memory → Nat → Byte → Memory
  | [], a, v => [(a, v)]
  | (b, w) :: m, a, v =>
    if a < b then (a, v) :: (b, w) :: m
    else if a = b then (a, v) :: m
    else (b, w) :: Memory.write m a v

/-- The four bytes of pixel `x` at address `p`: R, G, B, A at rising addresses (20_memory.md R43). -/
def pixelBytes (p : Nat) (x : Pixel) : List Host.Cell := [(p, x.r), (p + 1, x.g), (p + 2, x.b), (p + 3, x.a)]

/-- The 64 writes of `TileWrite` in its order: row by row, pixel `(col, row)` at `dst + row*stride + col*4` (R44). -/
def tileBytes (dst stride : Nat) (tile : Tile) : List Host.Cell :=
  quad.flatMap fun row => quad.flatMap fun col => pixelBytes (dst + row.val * stride + col.val * 4) (tile row col)

/-- Performs a list of byte writes in order. -/
def Memory.writeAll (m : Memory) (l : List Host.Cell) : Memory := l.foldl (fun m c => Memory.write m c.1 c.2) m

/-- `TileWrite(dst, stride, tile)` (R44). -/
def tileWrite (dst stride : Nat) (tile : Tile) (m : Memory) : Memory := Memory.writeAll m (tileBytes dst stride tile)

/-- Whether a window holds address `a`: `dst + row*stride + c` for `row` in 0..3 and `c` in 0..15 (R45). -/
def Window.contains (w : Window) (a : Nat) : Bool :=
  quad.any fun row => decide (w.dst + row.val * w.stride ≤ a ∧ a ≤ w.dst + row.val * w.stride + 15)

/-- The addresses of a window, row by row (R45). -/
def Window.addresses (w : Window) : List Nat :=
  quad.flatMap fun row => (List.range 16).map fun c => w.dst + row.val * w.stride + c

/-- The checks of a decode, in their order (R151, R152, R154): `stride < 16`, then a window past the top of `M`. -/
def decodeError (p : Params) (dst stride : Nat) : Option ErrCode :=
  if stride < 16 then some .badStride
  else if dst + 3 * stride + 15 > 2 ^ p.aw - 1 then some .dstRange
  else none

/-- The window a command writes: a decode that passes its checks has one, every other command has none (R44, R153). -/
def commandWindow (p : Params) (i : Instr) : Option Window :=
  if i.isDecode ∧ decodeError p i.dst i.stride = none then some ⟨i.dst, i.stride⟩ else none

/-- Replaces the destination memory. -/
def State.setMem (s : State) (m : Memory) : State := { s with mem := m }

/-- `complete(err, premul, res)` (00_scope.md R15): `STATUS` and `RES` take the command's results and `BUSY` falls
(70_reset_and_hazards.md R173). -/
def State.complete (s : State) (err : ErrCode) (premul : Bool) (res : BitVec 128) : State :=
  { s with status := statusWord err premul, res := res, inFlight := none, rivals := [] }

/-- `raise E` (00_scope.md R15, 60_exceptions.md R153): the error goes to `STATUS.ERR`, `PREMUL` and `RES` become 0, no
byte of `M` is written. It is not a trap: nothing is saved and there is no return from it (R158, R159). -/
def State.raise (s : State) (err : ErrCode) : State := s.complete err false 0

/-- The body of the three decode operations (41_bc1.md R98, R99, 43_bc3.md R138): the checks, the tile write, the
completion. -/
def decodeInto (dst stride : Nat) (tile : Tile) (premul : Bool) (s : State) : State :=
  match decodeError s.params dst stride with
  | some err => s.raise err
  | none => (s.setMem (tileWrite dst stride tile s.mem)).complete .ok premul 0

/-- One interpolated channel, `(m*x + n*y) div d`: exact numerator, truncating division (00_scope.md R10, R11,
41_bc1.md R95, 42_dxt5_alpha.md R124). -/
def blend (m n d : Nat) (x y : Byte) : Byte := BitVec.ofNat 8 ((m * x.toNat + n * y.toNat) / d)

end Machine
end Sys2Proof
end

