-- ==== Sys2Proof/Machine/Rgb565.lean ====
section
/-! DEFINITION. The RGB565 expander and the operation EXPAND565 (spec 40_rgb565.md). -/

namespace Sys2Proof
namespace Machine

/-- `r5 = c[15:11]` (R80). -/
def red5 (c : Packed565) : BitVec 5 := c.extractLsb' 11 5

/-- `g6 = c[10:5]` (R80). -/
def green6 (c : Packed565) : BitVec 6 := c.extractLsb' 5 6

/-- `b5 = c[4:0]` (R80). -/
def blue5 (c : Packed565) : BitVec 5 := c.extractLsb' 0 5

/-- `(v << 3) | (v >> 2)` (R81). -/
def widen5 (v : BitVec 5) : Byte := (v.setWidth 8 <<< 3) ||| (v.setWidth 8 >>> 2)

/-- `(v << 2) | (v >> 4)` (R81). -/
def widen6 (v : BitVec 6) : Byte := (v.setWidth 8 <<< 2) ||| (v.setWidth 8 >>> 4)

/-- `Expand565(c)` (R81). -/
def expand565 (c : Packed565) : Rgb := ⟨widen5 (red5 c), widen6 (green6 c), widen5 (blue5 c)⟩

/-- `Pack(r8, g8, b8) = {r8[7:3], g8[7:2], b8[7:3]}` (R85): used only to state the round-trip law; no operation packs
(log 20). -/
def pack565 (x : Rgb) : Packed565 := x.r.extractLsb' 3 5 ++ x.g.extractLsb' 2 6 ++ x.b.extractLsb' 3 5

/-- `EXPAND565` (R84). -/
def execExpand565 (blk : Block) (_dst _stride : Nat) (s : State) : Host.Outcome State Fault Refusal :=
  .next (s.complete .ok false (packRgb (expand565 (le16 blk 0))))

end Machine
end Sys2Proof
end

