-- ==== Sys2Proof/Machine/Bc1.lean ====
section
/-! DEFINITION. The colour palette, the BC1 tile and the operations DEC_BC1, DEC_BC1A, CPAL_BC1, CPAL_BC1A, CPAL_4C
(spec 41_bc1.md). -/

namespace Sys2Proof
namespace Machine

/-- The modes of `ColorPalette` (R90): strict BC1, BC1a, and the forced four-colour mode of a BC3 colour block. -/
inductive PaletteMode where
  | bc1
  | bc1a
  | four
  deriving DecidableEq, Repr

/-- `four = (mode == FOUR) or (c0 > c1)`, on the raw packed values (R91). -/
def isFourColour (c0 c1 : Packed565) (mode : PaletteMode) : Bool := mode = .four || decide (c1 < c0)

/-- An expanded endpoint as an opaque palette entry (R92, R93: alpha 255). -/
def opaquePixel (x : Rgb) : Pixel := ⟨x.r, x.g, x.b, 255⟩

/-- The opaque entry `(m*X0 + n*X1) div d`, channel by channel (R92, R93, R95). -/
def blendRgb (m n d : Nat) (x y : Rgb) : Pixel :=
  ⟨blend m n d x.r y.r, blend m n d x.g y.g, blend m n d x.b y.b, 255⟩

/-- The three-colour entry `P3` (R94). -/
def blackEntry (mode : PaletteMode) : Pixel := if mode = .bc1a then ⟨0, 0, 0, 0⟩ else ⟨0, 0, 0, 255⟩

/-- `ColorPalette(c0, c1, mode)` (R90 to R95). -/
def colorPalette (c0 c1 : Packed565) (mode : PaletteMode) : Vector Pixel 4 :=
  let x := expand565 c0
  let y := expand565 c1
  if isFourColour c0 c1 mode then
    #v[opaquePixel x, opaquePixel y, blendRgb 2 1 3 x y, blendRgb 1 2 3 x y]
  else
    #v[opaquePixel x, opaquePixel y, blendRgb 1 1 2 x y, blackEntry mode]

/-- `ColorIndex(codes, col, row) = (codes >> (2*(4*row + col))) & 3` (R96). -/
def colorIndex (codes : BitVec 32) (col row : Fin 4) : BitVec 2 :=
  ((codes >>> (2 * (4 * row.val + col.val))) &&& 3).setWidth 2

/-- The palette entry of a colour index (R97). -/
def paletteEntry (P : Vector Pixel 4) (k : BitVec 2) : Pixel := P.get k.toFin

/-- `BC1Tile(m)` (R97). -/
def bc1Tile (mode : PaletteMode) (blk : Block) : Tile := fun row col =>
  paletteEntry (colorPalette (le16 blk 0) (le16 blk 2) mode) (colorIndex (le32 blk 4) col row)

/-- `DEC_BC1` (R98). -/
def execDecBc1 (blk : Block) (dst stride : Nat) (s : State) : Host.Outcome State Fault Refusal :=
  .next (decodeInto dst stride (bc1Tile .bc1 blk) true s)

/-- `DEC_BC1A` (R99). -/
def execDecBc1a (blk : Block) (dst stride : Nat) (s : State) : Host.Outcome State Fault Refusal :=
  .next (decodeInto dst stride (bc1Tile .bc1a blk) true s)

/-- The result of a palette operation, `{W(P3), W(P2), W(P1), W(P0)}` (R100). -/
def paletteResult (mode : PaletteMode) (blk : Block) : BitVec 128 :=
  packColours (colorPalette (le16 blk 0) (le16 blk 2) mode)

/-- `CPAL_BC1` (R100). -/
def execCpalBc1 (blk : Block) (_dst _stride : Nat) (s : State) : Host.Outcome State Fault Refusal :=
  .next (s.complete .ok false (paletteResult .bc1 blk))

/-- `CPAL_BC1A` (R101). -/
def execCpalBc1a (blk : Block) (_dst _stride : Nat) (s : State) : Host.Outcome State Fault Refusal :=
  .next (s.complete .ok false (paletteResult .bc1a blk))

/-- `CPAL_4C` (R102). -/
def execCpal4c (blk : Block) (_dst _stride : Nat) (s : State) : Host.Outcome State Fault Refusal :=
  .next (s.complete .ok false (paletteResult .four blk))

end Machine
end Sys2Proof
end

