-- ==== Sys2Proof/Machine/Dxt5Alpha.lean ====
section
/-! DEFINITION. The DXT5 alpha decoder and the operation APAL (spec 42_dxt5_alpha.md). -/

namespace Sys2Proof
namespace Machine

/-- `AlphaPalette(a0, a1)` (R120 to R122): eight-point mode when `a0 > a1`, six-point mode otherwise. -/
def alphaPalette (a0 a1 : Byte) : Vector Byte 8 :=
  if a1 < a0 then
    #v[a0, a1, blend 6 1 7 a0 a1, blend 5 2 7 a0 a1, blend 4 3 7 a0 a1, blend 3 4 7 a0 a1, blend 2 5 7 a0 a1,
       blend 1 6 7 a0 a1]
  else
    #v[a0, a1, blend 4 1 5 a0 a1, blend 3 2 5 a0 a1, blend 2 3 5 a0 a1, blend 1 4 5 a0 a1, 0, 255]

/-- `AlphaIndex(acode, col, row) = (acode >> (3*(4*row + col))) & 7` (R123). -/
def alphaIndex (acode : BitVec 48) (col row : Fin 4) : BitVec 3 :=
  ((acode >>> (3 * (4 * row.val + col.val))) &&& 7).setWidth 3

/-- The alpha of an alpha index (43_bc3.md R137). -/
def alphaEntry (A : Vector Byte 8) (k : BitVec 3) : Byte := A.get k.toFin

/-- `APAL` (R125). -/
def execApal (blk : Block) (_dst _stride : Nat) (s : State) : Host.Outcome State Fault Refusal :=
  .next (s.complete .ok false (packAlphas (alphaPalette (blockByte blk 0) (blockByte blk 1))))

end Machine
end Sys2Proof
end

