-- ==== Sys2Proof/Machine/Bc3.lean ====
section
/-! DEFINITION. The BC3 tile and the operation DEC_BC3 (spec 43_bc3.md). -/

namespace Sys2Proof
namespace Machine

/-- `BC3Tile` (R135 to R137): colour from the forced four-colour palette of bytes 8 to 15, alpha from bytes 0 to 7. The
colour is not multiplied by the alpha (R140). -/
def bc3Tile (blk : Block) : Tile := fun row col =>
  let colour := paletteEntry (colorPalette (le16 blk 8) (le16 blk 10) .four) (colorIndex (le32 blk 12) col row)
  let alpha := alphaEntry (alphaPalette (blockByte blk 0) (blockByte blk 1)) (alphaIndex (le48 blk 2) col row)
  { colour with a := alpha }

/-- `DEC_BC3` (R138). -/
def execDecBc3 (blk : Block) (dst stride : Nat) (s : State) : Host.Outcome State Fault Refusal :=
  .next (decodeInto dst stride (bc3Tile blk) false s)

end Machine
end Sys2Proof
end

