-- ==== Sys2Proof/Machine/Reserved.lean ====
section
/-! DEFINITION. The reserved operations: each completes with ILLEGAL_OP (spec 30_encoding.md R68, 60_exceptions.md R150). -/

namespace Sys2Proof
namespace Machine

/-- The one effect of a reserved `op`, whatever its operands (R150, R153). -/
def illegalOp (s : State) : Host.Outcome State Fault Refusal := .next (s.raise .illegalOp)

/-- `op = 0x2` (R150). -/
def execReserved2 (_blk : Block) (_dst _stride : Nat) (s : State) : Host.Outcome State Fault Refusal := illegalOp s

/-- `op = 0x9` (R150). -/
def execReserved9 (_blk : Block) (_dst _stride : Nat) (s : State) : Host.Outcome State Fault Refusal := illegalOp s

/-- `op = 0xA` (R150). -/
def execReservedA (_blk : Block) (_dst _stride : Nat) (s : State) : Host.Outcome State Fault Refusal := illegalOp s

/-- `op = 0xB` (R150). -/
def execReservedB (_blk : Block) (_dst _stride : Nat) (s : State) : Host.Outcome State Fault Refusal := illegalOp s

/-- `op = 0xC` (R150). -/
def execReservedC (_blk : Block) (_dst _stride : Nat) (s : State) : Host.Outcome State Fault Refusal := illegalOp s

/-- `op = 0xD` (R150). -/
def execReservedD (_blk : Block) (_dst _stride : Nat) (s : State) : Host.Outcome State Fault Refusal := illegalOp s

/-- `op = 0xE` (R150). -/
def execReservedE (_blk : Block) (_dst _stride : Nat) (s : State) : Host.Outcome State Fault Refusal := illegalOp s

/-- `op = 0xF` (R150). -/
def execReservedF (_blk : Block) (_dst _stride : Nat) (s : State) : Host.Outcome State Fault Refusal := illegalOp s

end Machine
end Sys2Proof
end

