-- ==== Sys2Proof/Machine/Dispatch.lean ====
section
/-! DEFINITION. One arm per command: performing a command to its completion (spec 30_encoding.md R62). -/

namespace Sys2Proof
namespace Machine

def exec (i : Instr) (s : State) : Host.Outcome State Fault Refusal :=
  match i with
  | .decBc1 blk dst stride => Sys2Proof.Machine.execDecBc1 blk dst stride s
  | .decBc1a blk dst stride => Sys2Proof.Machine.execDecBc1a blk dst stride s
  | .reserved2 blk dst stride => Sys2Proof.Machine.execReserved2 blk dst stride s
  | .decBc3 blk dst stride => Sys2Proof.Machine.execDecBc3 blk dst stride s
  | .expand565 blk dst stride => Sys2Proof.Machine.execExpand565 blk dst stride s
  | .cpalBc1 blk dst stride => Sys2Proof.Machine.execCpalBc1 blk dst stride s
  | .cpalBc1a blk dst stride => Sys2Proof.Machine.execCpalBc1a blk dst stride s
  | .cpal4c blk dst stride => Sys2Proof.Machine.execCpal4c blk dst stride s
  | .apal blk dst stride => Sys2Proof.Machine.execApal blk dst stride s
  | .reserved9 blk dst stride => Sys2Proof.Machine.execReserved9 blk dst stride s
  | .reservedA blk dst stride => Sys2Proof.Machine.execReservedA blk dst stride s
  | .reservedB blk dst stride => Sys2Proof.Machine.execReservedB blk dst stride s
  | .reservedC blk dst stride => Sys2Proof.Machine.execReservedC blk dst stride s
  | .reservedD blk dst stride => Sys2Proof.Machine.execReservedD blk dst stride s
  | .reservedE blk dst stride => Sys2Proof.Machine.execReservedE blk dst stride s
  | .reservedF blk dst stride => Sys2Proof.Machine.execReservedF blk dst stride s

end Machine
end Sys2Proof
end

