-- ==== Sys2Proof/Machine/Interface.lean ====
section
/-! DEFINITION. The host side of the interface: the handshake, the host's accesses, reset, and several units sharing `M`
(spec 10_state.md R30, 20_memory.md R53, 60_exceptions.md R162, 70_reset_and_hazards.md R170 to R175). -/

namespace Sys2Proof
namespace Machine

/-- Tells every other unit whose command is in flight that the bytes `written` of `M` were written (60_exceptions.md R162). -/
def announceTo (written : List Nat) (units : List UnitRegs) : List UnitRegs :=
  units.map fun u => if u.inFlight.isSome then { u with rivals := written ++ u.rivals } else u

/-- The same, from the unit the host is addressing. -/
def State.announce (s : State) (written : List Nat) : State := { s with others := announceTo written s.others }

/-- The bytes of command `i`'s window, none where it has no window (20_memory.md R45). -/
def windowBytes (p : Params) (i : Instr) : List Nat :=
  match commandWindow p i with
  | some w => w.addresses
  | none => []

/-- The bytes of command `i`'s window that another unit wrote while `i` was in flight. -/
def sharedBytes (s : State) (i : Instr) : List Nat := (windowBytes s.params i).filter fun a => decide (a ∈ s.rivals)

/-- The shared bytes that keep the other unit's value, chosen freely for each (60_exceptions.md R162; log 18). A byte
that holds no value has none to keep. -/
def keptBytes (s : State) (i : Instr) : List Nat :=
  (sharedBytes s i).filter fun a => Config.raceKeeps s.draws a && (Memory.read s.mem a).isSome

/-- The bytes in which command `i`, completing in `s`, leaves its own value. Only these can race with a command in flight
on another unit: the value of a kept byte is older (log 18). -/
def landedBytes (s : State) (i : Instr) : List Nat := (windowBytes s.params i).filter fun a => decide (a ∉ keptBytes s i)

/-- One kept byte holds again the value it held in `before`. -/
def keepByte (before : Memory) (m : Memory) (a : Nat) : Memory :=
  match Memory.read before a with
  | some v => Memory.write m a v
  | none => m

/-- Every listed byte holds again the value it held in `before`. -/
def keepBytes (before : Memory) (l : List Nat) (m : Memory) : Memory := l.foldl (keepByte before) m

/-- `t` is the completion of `i` in `s`: each shared byte ends with the other unit's value or with this one's,
independently (60_exceptions.md R162). Nothing happens where no other unit wrote a byte of the window. -/
def State.settle (t : State) (i : Instr) (s : State) : State :=
  if sharedBytes s i = [] then t
  else { t with mem := keepBytes s.mem (keptBytes s i) t.mem, draws := s.draws + 1 }

/-- The unit holds an accepted command: `BUSY` is 1 (70_reset_and_hazards.md R173). No rival has written yet. -/
def State.accept (s : State) (i : Instr) : State := { s with inFlight := some i, rivals := [] }

/-- The data of the host's last read (log 16). -/
def State.setBus (s : State) (v : BitVec 128) : State := { s with bus := v }

/-- The unit accepts a command and `BUSY` rises (70_reset_and_hazards.md R173). While `BUSY = 1` there is no step (R174). -/
def hostPresent (cmd : Nat) (s : State) : Host.Outcome State Fault Refusal :=
  if s.busy = 1 then .refused .commandWhileBusy
  else match decode s.params cmd with
    | .ok i => .next (s.accept i)
    | .error _ => .refused .notACommand

/-- The command in flight completes: its effects land and `BUSY` falls, all at once (R173); the other units in flight are
told of the bytes it left its value in. With `BUSY = 0` the host
waits for nothing. -/
def hostAwait (s : State) : Host.Outcome State Fault Refusal :=
  match s.inFlight with
  | none => .next s
  | some i =>
    match exec i s with
    | .next t => .next ((t.settle i s).announce (landedBytes s i))
    | .fault r => .fault r
    | .refused r => .refused r

/-- One transaction: acceptance, performance and completion in one step (00_scope.md R4, 70_reset_and_hazards.md R173). -/
def hostCommand (cmd : Nat) (s : State) : Host.Outcome State Fault Refusal :=
  if s.busy = 1 then .refused .commandWhileBusy
  else match decode s.params cmd with
    | .ok i =>
      match exec i s with
      | .next t => .next (t.announce (windowBytes s.params i))
      | .fault r => .fault r
      | .refused r => .refused r
    | .error _ => .refused .notACommand

/-- The windows of the decodes in flight, of every unit (R175; DEDUCED, log 19). -/
def windowsInFlight (s : State) : List Window :=
  (s.inFlight :: s.others.map UnitRegs.inFlight).filterMap fun c => c.bind (commandWindow s.params)

/-- Whether address `a` is a window byte of a decode in flight (R175). -/
def inWindowInFlight (s : State) (a : Nat) : Bool := (windowsInFlight s).any fun w => w.contains a

/-- What the host sees in byte `a` of `M`: the last value written (20_memory.md R53), or the free value of power-up where
there is none (10_state.md R31; log 5). -/
def hostByte (s : State) (a : Nat) : Byte := (Memory.read s.mem a).getD (Config.powerUpByte a)

/-- The value the host sees in an interface register (R30; while a command is in flight, log 22). -/
def hostReg (s : State) : HostReg → BitVec 128
  | .status => s.status.setWidth 128
  | .res => s.res
  | .busy => s.busy.setWidth 128

/-- A host read of `M` (R30, R175). It has no side effect (20_memory.md R50). -/
def hostReadM (a : Nat) (s : State) : Host.Outcome State Fault Refusal :=
  if s.params.memSize ≤ a then .fault .addressOutsideM
  else if inWindowInFlight s a then .refused .windowAccessWhileBusy
  else .next (s.setBus ((hostByte s a).setWidth 128))

/-- A host write of `M` (R30, R175). -/
def hostWriteM (a : Nat) (v : Byte) (s : State) : Host.Outcome State Fault Refusal :=
  if s.params.memSize ≤ a then .fault .addressOutsideM
  else if inWindowInFlight s a then .refused .windowAccessWhileBusy
  else .next (s.setMem (Memory.write s.mem a v))

/-- A host read of an interface register (R30). -/
def hostReadReg (r : HostReg) (s : State) : Host.Outcome State Fault Refusal := .next (s.setBus (hostReg s r))

/-- A host write to an interface register has no effect (R30). -/
def hostWriteReg (_r : HostReg) (_v : BitVec 128) (s : State) : Host.Outcome State Fault Refusal := .next s

/-- The registers of a unit after reset (10_state.md R31). -/
def State.clearRegs (s : State) : State := { s with status := 0, res := 0, inFlight := none, rivals := [] }

/-- Each listed byte of `M` takes a free value, drawn for it alone (70_reset_and_hazards.md R170). -/
def spoilBytes (draw : Nat) (l : List Nat) (m : Memory) : Memory :=
  l.foldl (fun m a => Memory.write m a (Config.resetByte draw a)) m

/-- What reset leaves of `M` and of the draw counter where it abandoned a decode of window `w`: each window byte holds a
free value (70_reset_and_hazards.md R170), and the other units in flight are told of those bytes (log 18). -/
def State.spoilWindow (s : State) (w : Window) : State :=
  { s with
    mem := spoilBytes s.draws w.addresses s.mem
    others := announceTo w.addresses s.others
    draws := s.draws + 1 }

/-- Reset of the unit (70_reset_and_hazards.md R170): the command in flight is abandoned and the registers take their
reset values. `M` is unchanged, but for the window of a decode in flight, each byte of which holds a free value (a decode
that fails its checks has no window: log 14). The other units are not reset (log 6). -/
def hostReset (s : State) : Host.Outcome State Fault Refusal :=
  match s.inFlight.bind (commandWindow s.params) with
  | none => .next s.clearRegs
  | some w => .next (s.clearRegs.spoilWindow w)

/-- The registers of the unit the host is addressing. -/
def State.unit (s : State) : UnitRegs := ⟨s.status, s.res, s.inFlight, s.rivals⟩

/-- The unit addressed and unit `k` of the others, `u`, change places. -/
def State.swap (s : State) (k : Nat) (u : UnitRegs) : State :=
  { s with
    status := u.status, res := u.res, inFlight := u.inFlight, rivals := u.rivals
    others := s.others.set k s.unit }

/-- The host turns to unit `k` of the others; the unit it addressed takes that place (60_exceptions.md R162; log 8). -/
def hostSelect (k : Nat) (s : State) : Host.Outcome State Fault Refusal :=
  match s.others[k]? with
  | some u => .next (s.swap k u)
  | none => .refused .noSuchUnit

/-- What one host event does. -/
def hostEvent (e : HostEvent) (s : State) : Host.Outcome State Fault Refusal :=
  match e with
  | .command cmd => hostCommand cmd s
  | .present cmd => hostPresent cmd s
  | .await => hostAwait s
  | .readM a => hostReadM a s
  | .writeM a v => hostWriteM a v s
  | .readReg r => hostReadReg r s
  | .writeReg r v => hostWriteReg r v s
  | .reset => hostReset s
  | .select k => hostSelect k s

/-- The state in which the event taken from the head of the list acts: the rest are still to come. -/
def State.setInputs (s : State) (rest : List HostEvent) : State := { s with inputs := rest }

end Machine
end Sys2Proof
end

