-- ==== Sys2Proof/Machine/Step.lean ====
section
/-! DEFINITION. One step: the next event of the host (spec 00_scope.md R4, R5; log 2), and how a table word is placed to run. -/

namespace Sys2Proof
namespace Machine

/-- Performs the host's next event. With none to come, nothing happens: the host sequences the unit (10_state.md R32). -/
def step (s : State) : Host.Outcome State Fault Refusal :=
  match s.inputs with
  | [] => .next s
  | e :: rest => hostEvent e (s.setInputs rest)

/-- Places the command with the bits of `w` where the next step takes it: as the host's next event, the unit being idle
(the host presents a command only while `BUSY = 0`, 70_reset_and_hazards.md R174; log 21). -/
def State.withFetchWord (s : State) (nbits w : Nat) : State :=
  { s with inputs := .command (w % 2 ^ nbits) :: s.inputs, inFlight := none }

end Machine
end Sys2Proof
end

