-- ==== Sys2Proof/Machine/Assembler.lean ====
section
/-! DEFINITION. The assembler of one line of the spec's command syntax (spec 30_encoding.md R70 to R72): reading the line,
expanding pseudo-instructions, and encoding. `none` means that the assembler refuses the line. -/

namespace Sys2Proof
namespace Machine

/-- The mnemonics of R70 and the pseudo-instruction names of R71. -/
inductive Mnemonic where
  | decBc1
  | decBc1a
  | decBc3
  | expand565
  | cpalBc1
  | cpalBc1a
  | cpal4c
  | apal
  | rawcmd
  | decDxt1
  | decDxt5
  deriving DecidableEq, Repr

/-- An operand of a line: a number, an immediate `#v`, or a block `[b0 b1 …]` (R70, R72). -/
inductive AsmOperand where
  | num (n : Nat)
  | imm (n : Nat)
  | block (bytes : List Byte)
  deriving DecidableEq, Repr

/-- One command line (R70). -/
structure AsmLine where
  mnemonic : Mnemonic
  operands : List AsmOperand
  deriving DecidableEq, Repr

/-- The block whose bytes from `B[0]` upward are listed; bytes not listed are 0 (R70). -/
def blockOf : List Byte → Block
  | [] => 0
  | b :: bs => (blockOf bs <<< 8) ||| b.setWidth 128

/-- The two bytes of a 16-bit immediate, little-endian (R72). -/
def immBytes (c : Nat) : List Byte := [BitVec.ofNat 8 c, BitVec.ofNat 8 (c / 256)]

/-- The expansion of a pseudo-instruction (R71). An immediate out of range is refused, never truncated (R72). Every other
line is its own expansion. -/
def expandPseudo (l : AsmLine) : Option AsmLine :=
  match l.mnemonic, l.operands with
  | .decDxt1, ops => some ⟨.decBc1a, ops⟩
  | .decDxt5, ops => some ⟨.decBc3, ops⟩
  | .expand565, [.imm c] => if c ≤ 0xFFFF then some ⟨.expand565, [.block (immBytes c)]⟩ else none
  | .cpalBc1, [.imm c, .imm d] =>
    if c ≤ 0xFFFF ∧ d ≤ 0xFFFF then some ⟨.cpalBc1, [.block (immBytes c ++ immBytes d)]⟩ else none
  | .cpalBc1a, [.imm c, .imm d] =>
    if c ≤ 0xFFFF ∧ d ≤ 0xFFFF then some ⟨.cpalBc1a, [.block (immBytes c ++ immBytes d)]⟩ else none
  | .cpal4c, [.imm c, .imm d] =>
    if c ≤ 0xFFFF ∧ d ≤ 0xFFFF then some ⟨.cpal4c, [.block (immBytes c ++ immBytes d)]⟩ else none
  | .apal, [.imm a, .imm b] =>
    if a ≤ 0xFF ∧ b ≤ 0xFF then some ⟨.apal, [.block [BitVec.ofNat 8 a, BitVec.ofNat 8 b]]⟩ else none
  | m, ops => some ⟨m, ops⟩

/-- A block of at most `n` bytes: the number the mnemonic's line of R70 lists (log 15). -/
def blockUpTo (n : Nat) (bytes : List Byte) : Option Block := if bytes.length ≤ n then some (blockOf bytes) else none

/-- The command of an expanded line; a field the mnemonic has no operand for is 0 (R70). -/
def lineInstr (l : AsmLine) : Option Instr :=
  match l.mnemonic, l.operands with
  | .decBc1, [.num d, .num s, .block bs] => (blockUpTo 8 bs).map fun b => .decBc1 b d s
  | .decBc1a, [.num d, .num s, .block bs] => (blockUpTo 8 bs).map fun b => .decBc1a b d s
  | .decBc3, [.num d, .num s, .block bs] => (blockUpTo 16 bs).map fun b => .decBc3 b d s
  | .expand565, [.block bs] => (blockUpTo 2 bs).map fun b => .expand565 b 0 0
  | .cpalBc1, [.block bs] => (blockUpTo 4 bs).map fun b => .cpalBc1 b 0 0
  | .cpalBc1a, [.block bs] => (blockUpTo 4 bs).map fun b => .cpalBc1a b 0 0
  | .cpal4c, [.block bs] => (blockUpTo 4 bs).map fun b => .cpal4c b 0 0
  | .apal, [.block bs] => (blockUpTo 2 bs).map fun b => .apal b 0 0
  | .rawcmd, [.num op, .num d, .num s, .block bs] =>
    if h : op < 16 then (blockUpTo 16 bs).map fun b => opcodeMap.get ⟨op, h⟩ b d s else none
  | _, _ => none

/-- The command of a line, pseudo-instructions included; one whose `dst` or `stride` does not fit its field is refused
(log 15). -/
def asmInstr (p : Params) (l : AsmLine) : Option Instr :=
  match (expandPseudo l).bind lineInstr with
  | some i => if i.WellFormed p then some i else none
  | none => none

/-- The encoding of a line is the `CMD` of R60 (R70). -/
def assemble (p : Params) (l : AsmLine) : Option Nat := (asmInstr p l).map (encode p)

/-- The tokens of a line. -/
inductive Token where
  | word (cs : List Char)
  | comma
  | hash
  | lbrack
  | rbrack
  deriving DecidableEq, Repr

/-- The word read so far, if any, before the tokens that follow it. -/
def endWord (acc : List Char) (ts : List Token) : List Token := if acc = [] then ts else .word acc.reverse :: ts

/-- Cuts a line into tokens, `acc` being the word read so far, reversed. Anything after `;` is a comment (R70). -/
def tokens : List Char → List Char → List Token
  | [], acc => endWord acc []
  | c :: cs, acc =>
    if c = ';' then endWord acc []
    else if c = ' ' ∨ c = '\t' then endWord acc (tokens cs [])
    else if c = ',' then endWord acc (.comma :: tokens cs [])
    else if c = '#' then endWord acc (.hash :: tokens cs [])
    else if c = '[' then endWord acc (.lbrack :: tokens cs [])
    else if c = ']' then endWord acc (.rbrack :: tokens cs [])
    else tokens cs (c :: acc)

/-- The value of a digit in base `base`, at most 16. -/
def digit (base : Nat) (c : Char) : Option Nat :=
  let v := if '0' ≤ c ∧ c ≤ '9' then c.toNat - 48
    else if 'A' ≤ c ∧ c ≤ 'F' then c.toNat - 55
    else if 'a' ≤ c ∧ c ≤ 'f' then c.toNat - 87
    else 16
  if v < base then some v else none

/-- The value of a non-empty string of digits, most significant first. -/
def digits (base : Nat) : List Char → Nat → Option Nat
  | [], n => some n
  | c :: cs, n => (digit base c).bind fun v => digits base cs (n * base + v)

/-- An unsigned number, decimal or `0x` hexadecimal (R70). -/
def number : List Char → Option Nat
  | [] => none
  | ['0', 'x'] => none
  | '0' :: 'x' :: cs => digits 16 cs 0
  | cs => digits 10 cs 0

/-- A block byte: two hex digits (R70). -/
def hexByte : List Char → Option Byte
  | [h, l] => (digits 16 [h, l] 0).map (BitVec.ofNat 8)
  | _ => none

/-- The bytes of a block up to its closing bracket, and what follows it. -/
def blockBytes : List Token → Option (List Byte × List Token)
  | .rbrack :: ts => some ([], ts)
  | .word w :: ts => (hexByte w).bind fun b => (blockBytes ts).map fun r => (b :: r.1, r.2)
  | _ => none

/-- One operand and what follows it (R70, R72). -/
def operand : List Token → Option (AsmOperand × List Token)
  | .word w :: ts => (number w).map fun n => (.num n, ts)
  | .hash :: .word w :: ts => (number w).map fun n => (.imm n, ts)
  | .lbrack :: ts => (blockBytes ts).map fun r => (.block r.1, r.2)
  | _ => none

/-- Operands separated by commas (R70); `fuel` bounds their number. -/
def operands : Nat → List Token → Option (List AsmOperand)
  | 0, _ => none
  | fuel + 1, ts =>
    match operand ts with
    | some (o, []) => some [o]
    | some (o, .comma :: rest) => (operands fuel rest).map (o :: ·)
    | _ => none

/-- The mnemonics as they are written (R70, R71). -/
def mnemonicTable : List (String × Mnemonic) :=
  [("DEC_BC1", .decBc1), ("DEC_BC1A", .decBc1a), ("DEC_BC3", .decBc3), ("EXPAND565", .expand565),
   ("CPAL_BC1", .cpalBc1), ("CPAL_BC1A", .cpalBc1a), ("CPAL_4C", .cpal4c), ("APAL", .apal), ("RAWCMD", .rawcmd),
   ("DEC_DXT1", .decDxt1), ("DEC_DXT5", .decDxt5)]

/-- The mnemonic a word spells. -/
def mnemonicOf (w : List Char) : Option Mnemonic :=
  (mnemonicTable.find? fun row => row.1.toList = w).map (·.2)

/-- The command line a text spells (R70). -/
def parseLine (text : String) : Option AsmLine :=
  match tokens text.toList [] with
  | .word w :: ts => (mnemonicOf w).bind fun m => (operands (ts.length + 1) ts).map fun ops => ⟨m, ops⟩
  | _ => none

/-- The `CMD` a line of text assembles to (R70 to R72). -/
def assembleText (p : Params) (text : String) : Option Nat := (parseLine text).bind (assemble p)

end Machine
end Sys2Proof
end

