-- ==== Sys2Proof/Machine/HostGrid.lean ====
section
/-! DEFINITION. The host's block-grid convention (spec 20_memory.md R58): where the blocks of an image go. The unit does not
perform or check it (log 20). -/

namespace Sys2Proof
namespace Machine

/-- `blocks_w = (width+3) div 4`, and `blocks_h` from the height in the same way (R58). -/
def gridBlocks (size : Nat) : Nat := (size + 3) / 4

/-- `stride = blocks_w * 16` (R58). -/
def gridStride (width : Nat) : Nat := gridBlocks width * 16

/-- The window of block `(bx, by)`: `dst = base + by*4*stride + bx*16` (R58). -/
def gridWindow (base width bx bY : Nat) : Window :=
  ⟨base + bY * 4 * gridStride width + bx * 16, gridStride width⟩

/-- The raster occupies `stride * blocks_h * 4` bytes (R58). -/
def gridBytes (width height : Nat) : Nat := gridStride width * gridBlocks height * 4

/-- The blocks of an image in row-major order (R58). -/
def gridOrder (width height : Nat) : List (Nat × Nat) :=
  (List.range (gridBlocks height)).flatMap fun bY => (List.range (gridBlocks width)).map fun bx => (bx, bY)

end Machine
end Sys2Proof
end

