-- ==== Sys2Proof/Safety.lean ====
section
/-! DEFINITION. What a legal state is, and the host's duties, in the terms the statements use (spec 10_state.md R24, R27,
70_reset_and_hazards.md R174, R175). -/

namespace Sys2Proof
namespace Machine

/-- A command in flight is one `CMD` can hold. -/
def InFlightOk (p : Params) (c : Option Instr) : Prop := ∀ i, c = some i → i.WellFormed p

/-- The registers of a unit the host is not addressing are legal. -/
def UnitOk (p : Params) (u : UnitRegs) : Prop := statusReserved u.status = 0 ∧ InFlightOk p u.inFlight

/-- The invariant of the machine: legal parameters (00_scope.md R7); `M` in canonical form with every address below
`2^AW` (R27); `STATUS[7:3]` is 0 (R24), on every unit; every command in flight fits `CMD` (30_encoding.md R60). -/
structure Inv (s : State) : Prop where
  params : s.params.Legal
  memory : Memory.wf s.mem
  range : ∀ c ∈ s.mem, c.1 < s.params.memSize
  reserved : statusReserved s.status = 0
  command : InFlightOk s.params s.inFlight
  units : ∀ u ∈ s.others, UnitOk s.params u

/-- The host keeps its duties with event `e`: it presents a command, of the width of `CMD`, only while `BUSY = 0`
(70_reset_and_hazards.md R174); it accesses only bytes of `M`, and none of a window in flight (R175); it addresses a unit
that exists (60_exceptions.md R162). -/
def KeepsDuty (s : State) : HostEvent → Prop
  | .command cmd => s.busy = 0 ∧ cmd < 2 ^ s.params.cmdBits
  | .present cmd => s.busy = 0 ∧ cmd < 2 ^ s.params.cmdBits
  | .await => True
  | .readM a => a < s.params.memSize ∧ inWindowInFlight s a = false
  | .writeM a _ => a < s.params.memSize ∧ inWindowInFlight s a = false
  | .readReg _ => True
  | .writeReg _ _ => True
  | .reset => True
  | .select k => k < s.others.length

/-- An event of the transaction-level model (00_scope.md R4): any but the two halves of the handshake and a change of
unit. -/
def TransactionLevel : HostEvent → Prop
  | .command _ => True
  | .present _ => False
  | .await => True
  | .readM _ => True
  | .writeM _ _ => True
  | .readReg _ => True
  | .writeReg _ _ => True
  | .reset => True
  | .select _ => False

/-- The host's events for a list of commands, each a transaction (70_reset_and_hazards.md R174). -/
def commandsOf (p : Params) (l : List Instr) : List HostEvent := l.map fun i => .command (encode p i)

/-- Two windows share no byte. -/
def Window.Disjoint (w v : Window) : Prop := ∀ a, ¬ (w.contains a = true ∧ v.contains a = true)

/-- The four bytes of `M` at `p` are pixel `x`, R first (20_memory.md R43). -/
def HoldsPixel (m : Memory) (p : Nat) (x : Pixel) : Prop :=
  Memory.read m p = some x.r ∧ Memory.read m (p + 1) = some x.g ∧ Memory.read m (p + 2) = some x.b ∧
    Memory.read m (p + 3) = some x.a

/-- Everything a command never touches: the parameters, the other units, the host's coming events, the data of its last
read, the draw counter. -/
def SameSystem (s t : State) : Prop :=
  t.params = s.params ∧ t.others = s.others ∧ t.inputs = s.inputs ∧ t.bus = s.bus ∧ t.draws = s.draws

/-- `t` is what a decode that passes its checks leaves of `s` (41_bc1.md R98, 20_memory.md R44, R45): the tile stands in
the window, every other byte of `M` is as before, `STATUS` is `status`, `RES` and `BUSY` are 0. -/
def DecodesTo (s t : State) (dst stride : Nat) (tile : Tile) (status : BitVec 8) : Prop :=
  (∀ row col : Fin 4, HoldsPixel t.mem (dst + row.val * stride + col.val * 4) (tile row col)) ∧
  (∀ a, Window.contains ⟨dst, stride⟩ a = false → Memory.read t.mem a = Memory.read s.mem a) ∧
  t.status = status ∧ t.res = 0 ∧ t.busy = 0 ∧ SameSystem s t

/-- What a command that writes only `STATUS` and `RES` leaves of `s`: it completes, so `BUSY` is 0
(70_reset_and_hazards.md R173). -/
def State.completed (s : State) (status : BitVec 8) (res : BitVec 128) : State :=
  { s with status := status, res := res, inFlight := none, rivals := [] }

/-- The value command `i` writes to byte `a` of `M`, none where it writes nothing. The unit never reads `M`
(20_memory.md R41), so the state it is performed in does not matter. -/
def valueWritten (p : Params) (i : Instr) (a : Nat) : Option Byte :=
  match exec i (State.resetWith p 0) with
  | .next t => Memory.read t.mem a
  | .fault _ => none
  | .refused _ => none

/-- What a byte may hold after two commands that were in flight together wrote it (60_exceptions.md R162): either
command's value where both wrote, the one written value where one did, the value `before` where none did. -/
def EndsWithEither (before : Option Byte) (v w : Option Byte) (after : Option Byte) : Prop :=
  match v, w with
  | none, none => after = before
  | some x, none => after = some x
  | none, some y => after = some y
  | some x, some y => after = some x ∨ after = some y

/-- What a byte may hold after command `first` completed and `later` was accepted, both while `across` was in flight on
another unit (60_exceptions.md R162, 70_reset_and_hazards.md R177): where `later` wrote, `first` is overwritten, and the
byte ends with `later`'s value or with `across`'s; elsewhere it is the race of `first` and `across`. -/
def EndsWithoutSuperseded (before first later across after : Option Byte) : Prop :=
  match later with
  | some y => EndsWithEither before (some y) across after
  | none => EndsWithEither before first across after

end Machine
end Sys2Proof
end

