-- ==== Sys2Proof/Certificates/Slice0/Obligations.lean ====
section
/-! DEFINITION. The statements for the provers: what the numbered rules of the spec say of the model. -/

open Sys2Proof Sys2Proof.Machine

/-! ## Reset and the invariant -/

/-- 70_reset_and_hazards.md R170. Where a decode was in flight its window holds free values (log 7); an equation with
`Config.resetByte` says nothing about which. That the other units' registers, the coming events and the data of the host's
last read survive is the model's choice (log 6). (A decode in flight that fails its checks has no window: log 14, which this
statement leaves out.) -/
def Obligations.ResetEffect : Prop :=
  ∀ s : State, ∃ t, hostReset s = .next t ∧
    t.status = 0 ∧ t.res = 0 ∧ t.busy = 0 ∧
    ((∀ i, s.inFlight = some i → i.isDecode = false) → t.mem = s.mem) ∧
    (∀ i w, s.inFlight = some i → commandWindow s.params i = some w →
      (∀ a, w.contains a = true → Memory.read t.mem a = some (Config.resetByte s.draws a)) ∧
      (∀ a, w.contains a = false → Memory.read t.mem a = Memory.read s.mem a)) ∧
    t.params = s.params ∧ t.inputs = s.inputs ∧ t.bus = s.bus ∧
    t.others.map (fun u => (u.status, u.res, u.inFlight)) = s.others.map (fun u => (u.status, u.res, u.inFlight))

/-- 70_reset_and_hazards.md R171: whatever the state before, after reset the unit is idle and accepts any command at once. -/
def Obligations.AcceptsCommandAfterReset : Prop :=
  ∀ (s t : State) (cmd : Nat), hostReset s = .next t → cmd < 2 ^ s.params.cmdBits →
    t.busy = 0 ∧ ∃ i, decode t.params cmd = .ok i ∧ hostPresent cmd t = .next (t.accept i) ∧ (t.accept i).busy = 1

/-- 10_state.md R31 for the registers of every unit, at every legal configuration; that nothing of `M` has a value yet is
the model's reading of "unspecified after power-up" (log 5). -/
def Obligations.ResetStateRegisters : Prop :=
  ∀ (p : Params) (n : Nat),
    statusErr (State.resetWith p n).status = ErrCode.ok.bits ∧ statusPremul (State.resetWith p n).status = false ∧
    statusReserved (State.resetWith p n).status = 0 ∧ (State.resetWith p n).res = 0 ∧ (State.resetWith p n).busy = 0 ∧
    (∀ u ∈ (State.resetWith p n).others, u.status = 0 ∧ u.res = 0 ∧ u.inFlight = none) ∧
    (State.resetWith p n).others.length = n ∧ ∀ a, Memory.read (State.resetWith p n).mem a = none

/-- The invariant holds after reset, at every legal configuration; `State.reset` is one of them (log 1). -/
def Obligations.InvariantHoldsAfterReset : Prop :=
  (∀ (p : Params) (n : Nat), p.Legal → Inv (State.resetWith p n)) ∧ Inv State.reset

/-- Every step, of any host event, keeps the invariant: `M` stays canonical and inside `2^AW` bytes (R27, R44), the
reserved bits of `STATUS` stay 0 on every unit (R24), every command in flight fits `CMD` (R60). -/
def Obligations.StepKeepsInvariant : Prop :=
  ∀ s t : State, Inv s → step s = .next t → Inv t

/-- No step changes AW, SW or N_UNITS (00_scope.md R7). -/
def Obligations.StepKeepsConfiguration : Prop :=
  ∀ s t : State, step s = .next t → t.params = s.params ∧ t.others.length = s.others.length

/-! ## Encoding -/

/-- Decoding an encoded command gives it back, for every command and every value of its fields, at every AW and SW. -/
def Obligations.DecodeOfEncode : Prop :=
  ∀ (p : Params) (i : Instr), i.WellFormed p → decode p (encode p i) = .ok i

/-- Each word has one meaning: a decoded command is well formed and encodes to the word it was decoded from. -/
def Obligations.EncodeOfDecode : Prop :=
  ∀ (p : Params) (w : Nat) (i : Instr), decode p w = .ok i → i.WellFormed p ∧ encode p i = w

/-- 30_encoding.md R60: the four fields at their bits, and the length of `CMD`. -/
def Obligations.CommandFields : Prop :=
  ∀ (p : Params) (i : Instr), i.WellFormed p →
    encode p i < 2 ^ (132 + p.aw + p.sw) ∧
    encode p i % 2 ^ 4 = i.op.toNat ∧
    encode p i / 2 ^ 4 % 2 ^ 128 = i.blk.toNat ∧
    encode p i / 2 ^ 132 % 2 ^ p.aw = i.dst ∧
    encode p i / 2 ^ (132 + p.aw) = i.stride

/-- 30_encoding.md R73: every `CMD` selects an operation, by its `op` field alone; and a command is illegal only by its
`op`, whatever the other fields. -/
def Obligations.DecoderIsTotal : Prop :=
  (∀ (p : Params) (w : Nat), w < 2 ^ p.cmdBits → ∃ i, decode p w = .ok i ∧ i.op = BitVec.ofNat 4 w) ∧
  (∀ op : BitVec 4, ∃ k, (∀ b d s, (opcodeMap.get k b d s).op = op) ∧ ∀ k', (∀ b d s, (opcodeMap.get k' b d s).op = op) → k' = k) ∧
  (∀ (i : Instr) (s t : State), exec i s = .next t →
    (statusErr t.status = ErrCode.illegalOp.bits ↔ (i.op = 0x2 ∨ 0x9 ≤ i.op)))

/-- A number that does not fit `CMD`, whose length 30_encoding.md R60 gives, is no command: that the decoder rejects it, and
by the name `tooWide`, is the model's choice (log 11). -/
def Obligations.TooWideIsRejected : Prop :=
  ∀ (p : Params) (w : Nat), 2 ^ (132 + p.aw + p.sw) ≤ w → decode p w = .error .tooWide

/-- A few words written out from R60 (AW = SW = 16; the words of 95_test_vectors.md section 3) decode as they should. -/
def Obligations.SampleWordsDecode : Prop :=
  decode Params.vectors 0x002000000000000000000000E4E4E4E4001FF8001 =
    .ok (.decBc1a 0xE4E4E4E4001FF800#128 0 32) ∧
  decode Params.vectors 0x00200290FFFFFFFF0000001FFFFFFFFFFFFF00FF3 =
    .ok (.decBc3 0xFFFFFFFF0000001FFFFFFFFFFFFF00FF#128 0x290 32) ∧
  decode Params.vectors 0x00000000000000000000000000000000F800001F7 = .ok (.cpal4c 0xF800001F#128 0 0) ∧
  decode Params.vectors 0x000000000000000000000000000000000000F81F4 = .ok (.expand565 0xF81F#128 0 0) ∧
  decode Params.vectors 0x00000000000000000000000000000000000000FF8 = .ok (.apal 0xFF#128 0 0) ∧
  decode Params.vectors 0x00100100FFFFFFFFFFFFFFFFFFFFFFFFFFFFFFFF2 =
    .ok (.reserved2 0xFFFFFFFFFFFFFFFFFFFFFFFFFFFFFFFF#128 0x100 16)

/-- 30_encoding.md R63: the little-endian assemblies, byte by byte and as slices of `blk`. -/
def Obligations.LittleEndianFields : Prop :=
  ∀ (blk : Block) (i : Nat),
    let B := fun k => blk.extractLsb' (8 * k) 8
    le16 blk i = B (i + 1) ++ B i ∧ le32 blk i = B (i + 3) ++ B (i + 2) ++ B (i + 1) ++ B i ∧
    le48 blk i = B (i + 5) ++ B (i + 4) ++ B (i + 3) ++ B (i + 2) ++ B (i + 1) ++ B i ∧
    le16 blk i = blk.extractLsb' (8 * i) 16 ∧ le32 blk i = blk.extractLsb' (8 * i) 32 ∧
    le48 blk i = blk.extractLsb' (8 * i) 48

/-! ## The step -/

/-- A step runs the decoded command: where the host's next event is a transaction of a `CMD` that decodes to `i` and the
unit is idle, the step performs `i`, and then tells the other units in flight of the window written (log 8); with no
other unit in flight the step is `exec` itself. -/
def Obligations.StepRunsDecodedCommand : Prop :=
  ∀ (s : State) (cmd : Nat) (rest : List HostEvent) (i : Instr),
    s.inputs = .command cmd :: rest → s.busy = 0 → decode s.params cmd = .ok i →
    (∀ t, exec i (s.setInputs rest) = .next t → step s = .next (t.announce (windowBytes s.params i))) ∧
    ((∀ u ∈ s.others, u.inFlight = none) → step s = exec i (s.setInputs rest))

/-- Every command completes, in every state, with every operand: no value of `blk`, `dst` or `stride` stops the unit
(60_exceptions.md R155), and it is idle again. -/
def Obligations.EveryCommandCompletes : Prop :=
  ∀ (i : Instr) (s : State), ∃ t, exec i s = .next t ∧ t.busy = 0 ∧ SameSystem s t

/-- A host that keeps its duties never meets a fault or a refusal. -/
def Obligations.DutifulHostNeverStops : Prop :=
  ∀ (s : State) (e : HostEvent) (rest : List HostEvent), s.inputs = e :: rest → KeepsDuty (s.setInputs rest) e →
    ∃ t, step s = .next t ∧ t.inputs = rest

/-- 70_reset_and_hazards.md R173: acceptance followed by completion is the transaction, in every state, for every number
presented, refusals included. The two events of the handshake, `present` and `await`, are the model's (log 3). -/
def Obligations.HandshakeIsTransaction : Prop :=
  ∀ (s : State) (cmd : Nat) (rest : List HostEvent),
    Host.Core.run core 2 (s.setInputs (.present cmd :: .await :: rest)) = step (s.setInputs (.command cmd :: rest))

/-- 10_state.md R26: `BUSY` rises at acceptance, falls at completion and at reset, and no other event on the unit moves
it; so a host that works in whole transactions leaves `BUSY = 0` after every step. -/
def Obligations.BusyFollowsHandshake : Prop :=
  (∀ (s t : State) (e : HostEvent) (rest : List HostEvent), s.inputs = e :: rest → step s = .next t →
    ((∃ c, e = .present c) → s.busy = 0 ∧ t.busy = 1) ∧
    ((∃ c, e = .command c) → s.busy = 0 ∧ t.busy = 0) ∧
    (e = .await → t.busy = 0) ∧ (e = .reset → t.busy = 0) ∧
    ((∃ a, e = .readM a) ∨ (∃ a v, e = .writeM a v) ∨ (∃ r, e = .readReg r) ∨ (∃ r v, e = .writeReg r v) →
      t.busy = s.busy)) ∧
  (∀ s t : State, (∀ e ∈ s.inputs, TransactionLevel e) → s.busy = 0 → step s = .next t →
    t.busy = 0 ∧ ∀ e ∈ t.inputs, TransactionLevel e)

/-- 70_reset_and_hazards.md R174: a command presented while `BUSY = 1` has no step. -/
def Obligations.CommandWhileBusyRefused : Prop :=
  ∀ (s : State) (cmd : Nat), s.busy = 1 →
    hostPresent cmd s = .refused .commandWhileBusy ∧ hostCommand cmd s = .refused .commandWhileBusy

/-- 70_reset_and_hazards.md R175: while a decode is in flight the model has no step for a host access to a byte of its
window; accesses to bytes outside every window in flight are unaffected. That this holds of the windows of every unit is
log 19; what a read of a byte that nothing has written returns is log 5, and that it is put on `bus` is log 16. -/
def Obligations.WindowAccessWhileBusy : Prop :=
  ∀ (s : State) (a : Nat) (v : Byte), a < s.params.memSize →
    (∀ i w, (s.inFlight = some i ∨ ∃ u ∈ s.others, u.inFlight = some i) → commandWindow s.params i = some w →
      w.contains a = true →
      hostReadM a s = .refused .windowAccessWhileBusy ∧ hostWriteM a v s = .refused .windowAccessWhileBusy) ∧
    ((∀ i w, (s.inFlight = some i ∨ ∃ u ∈ s.others, u.inFlight = some i) → commandWindow s.params i = some w →
      w.contains a = false) →
      hostReadM a s = .next (s.setBus ((hostByte s a).setWidth 128)) ∧
      hostWriteM a v s = .next (s.setMem (Memory.write s.mem a v)))

/-- 10_state.md R30: a host write to `STATUS`, `RES` or `BUSY` has no effect; a host read of one returns it, on `bus`
(log 16), and changes nothing else. It holds while a command is in flight too, where what `STATUS` and `RES` hold is the
model's reading (log 22). -/
def Obligations.RegisterAccesses : Prop :=
  ∀ (s : State) (r : HostReg) (v : BitVec 128),
    hostWriteReg r v s = .next s ∧
    hostReadReg .status s = .next (s.setBus (s.status.setWidth 128)) ∧
    hostReadReg .res s = .next (s.setBus s.res) ∧
    hostReadReg .busy s = .next (s.setBus (s.busy.setWidth 128))

/-- 20_memory.md R40, R53, for the host's own writes: a byte written reads back, and every other byte, register and unit
is as before. That the value read back stands on `bus` is the model's choice (log 16), and so is the fault of an access
outside `0 … 2^AW-1`, where R40 gives no byte (log 10). -/
def Obligations.HostReadsItsLastWrite : Prop :=
  ∀ (s : State) (a : Nat) (v : Byte),
    (a < s.params.memSize → inWindowInFlight s a = false →
      ∃ t, hostWriteM a v s = .next t ∧ hostReadM a t = .next (t.setBus (v.setWidth 128)) ∧
        (∀ b, b ≠ a → Memory.read t.mem b = Memory.read s.mem b) ∧
        t.status = s.status ∧ t.res = s.res ∧ t.inFlight = s.inFlight ∧ t.rivals = s.rivals ∧ SameSystem s t) ∧
    (s.params.memSize ≤ a →
      hostWriteM a v s = .fault .addressOutsideM ∧ hostReadM a s = .fault .addressOutsideM)

/-- Who changes `M` (10_state.md R30, 20_memory.md R45, R50): if a step changes what byte `a` reads as, its event was a
host write to `a`, or the completion of a decode whose window holds `a` (70_reset_and_hazards.md R173), or a reset that
abandoned such a decode (R170). That a reset over a decode that fails its checks changes no byte is log 14; that
completion is an event of its own, `await`, is log 3. -/
def Obligations.OnlyWritersChangeMemory : Prop :=
  ∀ (s t : State) (a : Nat), step s = .next t → Memory.read t.mem a ≠ Memory.read s.mem a →
    (∃ v rest, s.inputs = .writeM a v :: rest) ∨
    (∃ cmd rest i w, s.inputs = .command cmd :: rest ∧ decode s.params cmd = .ok i ∧
      commandWindow s.params i = some w ∧ w.contains a = true) ∨
    (∃ rest i w, (s.inputs = .await :: rest ∨ s.inputs = .reset :: rest) ∧ s.inFlight = some i ∧
      commandWindow s.params i = some w ∧ w.contains a = true)

/-! ## RGB565 -/

/-- 40_rgb565.md R80, R81: the three packed fields, and each channel as the field followed by its own top bits, as the
`|` of two shifts, and as their sum. -/
def Obligations.ExpandReplicatesTopBits : Prop :=
  ∀ c : Packed565,
    let r5 := c.extractLsb' 11 5
    let g6 := c.extractLsb' 5 6
    let b5 := c.extractLsb' 0 5
    let x := expand565 c
    (x.r = r5 ++ c.extractLsb' 13 3 ∧ x.g = g6 ++ c.extractLsb' 9 2 ∧ x.b = b5 ++ c.extractLsb' 2 3) ∧
    (x.r.toNat = (r5.toNat <<< 3) ||| (r5.toNat >>> 2) ∧ x.g.toNat = (g6.toNat <<< 2) ||| (g6.toNat >>> 4) ∧
      x.b.toNat = (b5.toNat <<< 3) ||| (b5.toNat >>> 2)) ∧
    (x.r.toNat = (r5.toNat <<< 3) + (r5.toNat >>> 2) ∧ x.g.toNat = (g6.toNat <<< 2) + (g6.toNat >>> 4) ∧
      x.b.toNat = (b5.toNat <<< 3) + (b5.toNat >>> 2))

/-- 40_rgb565.md R82: endpoints fixed, each channel map strictly increasing, injective, top bits the packed field. -/
def Obligations.ExpandLaws : Prop :=
  (widen5 0x1F = 0xFF ∧ widen6 0x3F = 0xFF ∧ widen5 0 = 0 ∧ widen6 0 = 0) ∧
  (∀ v w : BitVec 5, v < w → widen5 v < widen5 w) ∧ (∀ v w : BitVec 6, v < w → widen6 v < widen6 w) ∧
  (∀ c d : Packed565, expand565 c = expand565 d → c = d) ∧
  (∀ c : Packed565, (expand565 c).r.toNat / 8 = (red5 c).toNat ∧ (expand565 c).g.toNat / 4 = (green6 c).toNat ∧
    (expand565 c).b.toNat / 8 = (blue5 c).toNat)

/-- 40_rgb565.md R85: the exact round trip with the truncating packing. -/
def Obligations.PackOfExpand : Prop :=
  ∀ c : Packed565, pack565 (expand565 c) = c

/-- 40_rgb565.md R84: EXPAND565 completes with its result, in every state and with every operand, and changes nothing
else. `c` is `blk[15:0]`, red its bits [15:11]; each byte of the result is the field and its top bits. -/
def Obligations.Expand565Result : Prop :=
  ∀ (blk : Block) (dst stride : Nat) (s : State), (Instr.expand565 blk dst stride).op = 0x4 ∧
    exec (.expand565 blk dst stride) s =
      .next (s.completed 0x00#8
        (0#104 ++ (blk.extractLsb' 0 5 ++ blk.extractLsb' 2 3) ++ (blk.extractLsb' 5 6 ++ blk.extractLsb' 9 2) ++
          (blk.extractLsb' 11 5 ++ blk.extractLsb' 13 3)))

/-! ## Colour palette -/

/-- 41_bc1.md R91 to R94: the four entries in each mode; every division truncates, every numerator is exact. -/
def Obligations.ColourPaletteEntries : Prop :=
  ∀ (c0 c1 : Packed565) (mode : PaletteMode),
    let x := expand565 c0
    let y := expand565 c1
    let P := colorPalette c0 c1 mode
    P[0] = ⟨x.r, x.g, x.b, 255⟩ ∧ P[1] = ⟨y.r, y.g, y.b, 255⟩ ∧
    ((mode = .four ∨ c0.toNat > c1.toNat) →
      (P[2].r.toNat = (2 * x.r.toNat + y.r.toNat) / 3 ∧ P[2].g.toNat = (2 * x.g.toNat + y.g.toNat) / 3 ∧
        P[2].b.toNat = (2 * x.b.toNat + y.b.toNat) / 3 ∧ P[2].a = 255) ∧
      (P[3].r.toNat = (x.r.toNat + 2 * y.r.toNat) / 3 ∧ P[3].g.toNat = (x.g.toNat + 2 * y.g.toNat) / 3 ∧
        P[3].b.toNat = (x.b.toNat + 2 * y.b.toNat) / 3 ∧ P[3].a = 255)) ∧
    (mode ≠ .four → c0.toNat ≤ c1.toNat →
      (P[2].r.toNat = (x.r.toNat + y.r.toNat) / 2 ∧ P[2].g.toNat = (x.g.toNat + y.g.toNat) / 2 ∧
        P[2].b.toNat = (x.b.toNat + y.b.toNat) / 2 ∧ P[2].a = 255) ∧
      (mode = .bc1a → P[3] = ⟨0, 0, 0, 0⟩) ∧ (mode = .bc1 → P[3] = ⟨0, 0, 0, 255⟩))

/-- 41_bc1.md R100 to R102: the three palette operations complete with their palette, entry `k` in `RES[32k+31:32k]`, R in
the low byte and A in the high byte, in every state and with every operand, and change nothing else. -/
def Obligations.PaletteCommandResults : Prop :=
  ∀ (mode : PaletteMode) (blk : Block) (dst stride : Nat) (s : State), ∃ res : BitVec 128,
    ((Instr.cpalBc1 blk dst stride).op = 0x5 ∧ (Instr.cpalBc1a blk dst stride).op = 0x6 ∧
      (Instr.cpal4c blk dst stride).op = 0x7) ∧
    (match mode with
      | .bc1 => exec (.cpalBc1 blk dst stride) s
      | .bc1a => exec (.cpalBc1a blk dst stride) s
      | .four => exec (.cpal4c blk dst stride) s) = .next (s.completed 0x00#8 res) ∧
    ∀ k : Fin 4,
      let x := (colorPalette (blk.extractLsb' 0 16) (blk.extractLsb' 16 16) mode)[k]
      res.extractLsb' (32 * k.val) 8 = x.r ∧ res.extractLsb' (32 * k.val + 8) 8 = x.g ∧
      res.extractLsb' (32 * k.val + 16) 8 = x.b ∧ res.extractLsb' (32 * k.val + 24) 8 = x.a

/-- 41_bc1.md R96 and 42_dxt5_alpha.md R123: the indices of pixel `(col, row)` are bits `2i+1:2i` of `codes` and bits
`3i+2:3i` of `acode`, with `i = 4*row + col`; and the formulas of the rules, on integers. -/
def Obligations.CodeWordIndexBits : Prop :=
  ∀ (codes : BitVec 32) (acode : BitVec 48) (col row : Fin 4),
    colorIndex codes col row = codes.extractLsb' (2 * (4 * row.val + col.val)) 2 ∧
    alphaIndex acode col row = acode.extractLsb' (3 * (4 * row.val + col.val)) 3 ∧
    (colorIndex codes col row).toNat = (codes.toNat >>> (2 * (4 * row.val + col.val))) &&& 3 ∧
    (alphaIndex acode col row).toNat = (acode.toNat >>> (3 * (4 * row.val + col.val))) &&& 7

/-- 41_bc1.md R103: the laws of the BC1 decode. The tiles of the first law are those of every block whose colour half has
that code word, in each of the three modes. -/
def Obligations.ColourPaletteLaws : Prop :=
  (∀ (c0 c1 : Packed565) (mode : PaletteMode) (col row : Fin 4),
    let P := colorPalette c0 c1 mode
    paletteEntry P (colorIndex 0x00000000#32 col row) = opaquePixel (expand565 c0) ∧
    paletteEntry P (colorIndex 0x55555555#32 col row) = opaquePixel (expand565 c1)) ∧
  (isFourColour 0x0020 0x001F .bc1 = true ∧ isFourColour 0x0020 0x001F .bc1a = true ∧
    expand565 0x0020 = ⟨0, 4, 0⟩ ∧ expand565 0x001F = ⟨0, 0, 255⟩) ∧
  (∀ (c0 c1 : Packed565) (mode : PaletteMode) (k : Fin 4), k.val = 2 ∨ k.val = 3 ∧ isFourColour c0 c1 mode = true →
    let x := expand565 c0
    let y := expand565 c1
    let z := (colorPalette c0 c1 mode)[k]
    (min x.r.toNat y.r.toNat ≤ z.r.toNat ∧ z.r.toNat ≤ max x.r.toNat y.r.toNat) ∧
    (min x.g.toNat y.g.toNat ≤ z.g.toNat ∧ z.g.toNat ≤ max x.g.toNat y.g.toNat) ∧
    (min x.b.toNat y.b.toNat ≤ z.b.toNat ∧ z.b.toNat ≤ max x.b.toNat y.b.toNat)) ∧
  (∀ c0 c1 : Packed565,
    (colorPalette c1 c0 .four)[2] = (colorPalette c0 c1 .four)[3] ∧
    (colorPalette c1 c0 .four)[3] = (colorPalette c0 c1 .four)[2]) ∧
  ((colorPalette 0x001F 0x0000 .four)[2].b = 170 ∧ widen5 (BitVec.ofNat 5 ((2 * 31 + 0) / 3)) = 165)

/-! ## Alpha palette -/

/-- 42_dxt5_alpha.md R120 to R122: the eight entries in each mode, and the closed forms of the interpolated ones. -/
def Obligations.AlphaPaletteEntries : Prop :=
  ∀ a0 a1 : Byte,
    let A := alphaPalette a0 a1
    let x := a0.toNat
    let y := a1.toNat
    A[0] = a0 ∧ A[1] = a1 ∧
    (x > y → A[2].toNat = (6 * x + 1 * y) / 7 ∧ A[3].toNat = (5 * x + 2 * y) / 7 ∧ A[4].toNat = (4 * x + 3 * y) / 7 ∧
      A[5].toNat = (3 * x + 4 * y) / 7 ∧ A[6].toNat = (2 * x + 5 * y) / 7 ∧ A[7].toNat = (1 * x + 6 * y) / 7 ∧
      ∀ k : Fin 8, 2 ≤ k.val → A[k].toNat = ((8 - k.val) * x + (k.val - 1) * y) / 7) ∧
    (x ≤ y → A[2].toNat = (4 * x + 1 * y) / 5 ∧ A[3].toNat = (3 * x + 2 * y) / 5 ∧ A[4].toNat = (2 * x + 3 * y) / 5 ∧
      A[5].toNat = (1 * x + 4 * y) / 5 ∧ A[6].toNat = 0 ∧ A[7].toNat = 255 ∧
      ∀ k : Fin 8, 2 ≤ k.val → k.val ≤ 5 → A[k].toNat = ((6 - k.val) * x + (k.val - 1) * y) / 5)

/-- 42_dxt5_alpha.md R126: the laws of the alpha palette. -/
def Obligations.AlphaPaletteLaws : Prop :=
  (∀ a0 a1 : Byte,
    let A := alphaPalette a0 a1
    (A[0] = a0 ∧ A[1] = a1) ∧ (a0 ≤ a1 → A[6] = 0 ∧ A[7] = 255) ∧
    (a1 < a0 → A[2] ≤ a0 ∧ A[3] ≤ A[2] ∧ A[4] ≤ A[3] ∧ A[5] ≤ A[4] ∧ A[6] ≤ A[5] ∧ A[7] ≤ A[6] ∧ a1 ≤ A[7]) ∧
    (a0 ≤ a1 → a0 ≤ A[2] ∧ A[2] ≤ A[3] ∧ A[3] ≤ A[4] ∧ A[4] ≤ A[5] ∧ A[5] ≤ a1)) ∧
  (∀ a : Byte, let A := alphaPalette a a
    A[2] = a ∧ A[3] = a ∧ A[4] = a ∧ A[5] = a) ∧
  (alphaPalette 255 0)[2] = 218

/-- 42_dxt5_alpha.md R125: APAL completes with entry `k` in `RES[8k+7:8k]` and 0 above, in every state and with every
operand, and changes nothing else. -/
def Obligations.ApalResult : Prop :=
  ∀ (blk : Block) (dst stride : Nat) (s : State), ∃ res : BitVec 128, (Instr.apal blk dst stride).op = 0x8 ∧
    exec (.apal blk dst stride) s = .next (s.completed 0x00#8 res) ∧
    (∀ k : Fin 8, res.extractLsb' (8 * k.val) 8 = (alphaPalette (blk.extractLsb' 0 8) (blk.extractLsb' 8 8))[k]) ∧
    res.extractLsb' 64 64 = 0

/-- 41_bc1.md R104 and 42_dxt5_alpha.md R124: every interpolation the palettes make (weights of sum 3, 2, 7 and 5) is what
the multiply and shift circuit of the rule gives on its exact numerator. -/
def Obligations.DivisionCircuits : Prop :=
  ∀ (m n : Nat) (x y : Byte),
    let q := m * x.toNat + n * y.toNat
    (m + n = 3 → blend m n 3 x y = BitVec.ofNat 8 ((q * 683) >>> 11)) ∧
    (m + n = 2 → blend m n 2 x y = BitVec.ofNat 8 (q >>> 1)) ∧
    (m + n = 7 → blend m n 7 x y = BitVec.ofNat 8 ((q * 2341) >>> 14)) ∧
    (m + n = 5 → blend m n 5 x y = BitVec.ofNat 8 ((q * 1639) >>> 13))

/-! ## The decode operations -/

/-- 41_bc1.md R98: DEC_BC1, whole. `c0 = blk[15:0]`, `c1 = blk[31:16]`, the code of pixel `(col, row)` is at bit
`32 + 2*(4*row + col)` of `blk`. -/
def Obligations.DecBc1Result : Prop :=
  ∀ (blk : Block) (dst stride : Nat) (s : State), (Instr.decBc1 blk dst stride).op = 0x0 ∧
    (stride < 16 → exec (.decBc1 blk dst stride) s = .next (s.completed 0x02#8 0)) ∧
    (16 ≤ stride → dst + 3 * stride + 15 > 2 ^ s.params.aw - 1 →
      exec (.decBc1 blk dst stride) s = .next (s.completed 0x03#8 0)) ∧
    (16 ≤ stride → dst + 3 * stride + 15 ≤ 2 ^ s.params.aw - 1 →
      ∃ t, exec (.decBc1 blk dst stride) s = .next t ∧
        DecodesTo s t dst stride
          (fun row col => (colorPalette (blk.extractLsb' 0 16) (blk.extractLsb' 16 16) .bc1).get
            (blk.extractLsb' (32 + 2 * (4 * row.val + col.val)) 2).toFin) 0x04#8)

/-- 41_bc1.md R99: DEC_BC1A, whole. -/
def Obligations.DecBc1aResult : Prop :=
  ∀ (blk : Block) (dst stride : Nat) (s : State), (Instr.decBc1a blk dst stride).op = 0x1 ∧
    (stride < 16 → exec (.decBc1a blk dst stride) s = .next (s.completed 0x02#8 0)) ∧
    (16 ≤ stride → dst + 3 * stride + 15 > 2 ^ s.params.aw - 1 →
      exec (.decBc1a blk dst stride) s = .next (s.completed 0x03#8 0)) ∧
    (16 ≤ stride → dst + 3 * stride + 15 ≤ 2 ^ s.params.aw - 1 →
      ∃ t, exec (.decBc1a blk dst stride) s = .next t ∧
        DecodesTo s t dst stride
          (fun row col => (colorPalette (blk.extractLsb' 0 16) (blk.extractLsb' 16 16) .bc1a).get
            (blk.extractLsb' (32 + 2 * (4 * row.val + col.val)) 2).toFin) 0x04#8)

/-- 43_bc3.md R137, R138, R140: DEC_BC3, whole. The colour is that of the forced four-colour palette of `blk[95:64]`, not
multiplied by the alpha; the alpha code of pixel `(col, row)` is at bit `16 + 3*(4*row + col)` of `blk`, its colour code
at bit `96 + 2*(4*row + col)`. -/
def Obligations.DecBc3Result : Prop :=
  ∀ (blk : Block) (dst stride : Nat) (s : State), (Instr.decBc3 blk dst stride).op = 0x3 ∧
    (stride < 16 → exec (.decBc3 blk dst stride) s = .next (s.completed 0x02#8 0)) ∧
    (16 ≤ stride → dst + 3 * stride + 15 > 2 ^ s.params.aw - 1 →
      exec (.decBc3 blk dst stride) s = .next (s.completed 0x03#8 0)) ∧
    (16 ≤ stride → dst + 3 * stride + 15 ≤ 2 ^ s.params.aw - 1 →
      ∃ t, exec (.decBc3 blk dst stride) s = .next t ∧
        DecodesTo s t dst stride
          (fun row col =>
            let x := (colorPalette (blk.extractLsb' 64 16) (blk.extractLsb' 80 16) .four).get
              (blk.extractLsb' (96 + 2 * (4 * row.val + col.val)) 2).toFin
            ⟨x.r, x.g, x.b, (alphaPalette (blk.extractLsb' 0 8) (blk.extractLsb' 8 8)).get
              (blk.extractLsb' (16 + 3 * (4 * row.val + col.val)) 3).toFin⟩) 0x00#8)

/-- 43_bc3.md R139, its three laws: the colour half of a BC3 block beside the same bytes decoded as a BC1 block. -/
def Obligations.Bc3ColourBesideBc1 : Prop :=
  (∀ (c0 c1 : Packed565) (mode : PaletteMode), c1 < c0 → colorPalette c0 c1 mode = colorPalette c0 c1 .four) ∧
  ((colorPalette 0x0000 0xFFFF .bc1a)[3] = ⟨0, 0, 0, 0⟩ ∧ (colorPalette 0x0000 0xFFFF .four)[3] = ⟨170, 170, 170, 255⟩) ∧
  (∀ (c : Packed565) (k : Fin 4), (colorPalette c c .four)[k] = opaquePixel (expand565 c) ∧
    (colorPalette c c .bc1)[3] = ⟨0, 0, 0, 255⟩ ∧ (colorPalette c c .bc1a)[3] = ⟨0, 0, 0, 0⟩)

/-- 60_exceptions.md R150, 30_encoding.md R68: a reserved `op` completes with ILLEGAL_OP and has no other effect. -/
def Obligations.ReservedOpsComplete : Prop :=
  ∀ (i : Instr) (s : State), (i.op = 0x2 ∨ 0x9 ≤ i.op) → exec i s = .next (s.completed 0x01#8 0)

/-- 60_exceptions.md R154: the completion code of every command, the checks in their order. -/
def Obligations.ErrorPriority : Prop :=
  ∀ (i : Instr) (s t : State), exec i s = .next t →
    statusErr t.status =
      if i.op = 0x2 ∨ 0x9 ≤ i.op then 0b01
      else if (i.op = 0x0 ∨ i.op = 0x1 ∨ i.op = 0x3) ∧ i.stride < 16 then 0b10
      else if (i.op = 0x0 ∨ i.op = 0x1 ∨ i.op = 0x3) ∧ i.dst + 3 * i.stride + 15 > 2 ^ s.params.aw - 1 then 0b11
      else 0b00

/-- 60_exceptions.md R153: the effect of an error, and that errors are precise. -/
def Obligations.ErrorEffect : Prop :=
  ∀ (i : Instr) (s t : State), exec i s = .next t → statusErr t.status ≠ 0 →
    t = s.completed (0#5 ++ 0#1 ++ statusErr t.status) 0 ∧ t.mem = s.mem ∧ t.busy = 0

/-- 10_state.md R23, R24: what `PREMUL` and the reserved bits are after every completion; and R25's last sentence, that
every completion but a sub-block operation's leaves `RES` 0. -/
def Obligations.StatusAndResAfterCompletion : Prop :=
  ∀ (i : Instr) (s t : State), exec i s = .next t →
    (statusPremul t.status = true ↔ (statusErr t.status = 0 ∧ (i.op = 0x0 ∨ i.op = 0x1))) ∧
    statusReserved t.status = 0 ∧
    ((i.op < 0x4 ∨ statusErr t.status ≠ 0) → t.res = 0)

/-- 10_state.md R29, 70_reset_and_hazards.md R176: `STATUS` and `RES` after a command depend on the command and the
parameters only, on nothing an earlier command left. -/
def Obligations.CompletionDependsOnCommandOnly : Prop :=
  ∀ (i : Instr) (s s' t t' : State), s.params = s'.params → exec i s = .next t → exec i s' = .next t' →
    t.status = t'.status ∧ t.res = t'.res

/-- 20_memory.md R41: the unit never reads `M`. Two runs that differ in `M` end with the same registers, and each byte is
either the same in both or untouched in both. -/
def Obligations.UnitNeverReadsMemory : Prop :=
  ∀ (i : Instr) (s t t' : State) (m : Memory), exec i s = .next t → exec i (s.setMem m) = .next t' →
    t' = t.setMem t'.mem ∧
    ∀ a, Memory.read t.mem a = Memory.read t'.mem a ∨
      (Memory.read t.mem a = Memory.read s.mem a ∧ Memory.read t'.mem a = Memory.read m a)

/-- 30_encoding.md R64, R66, R67: the bytes of `blk` an operation does not use, and `dst` and `stride` of one that is no
decode, have no effect. -/
def Obligations.IgnoredOperands : Prop :=
  ∀ (b b' : Block) (d d' st st' : Nat) (s : State),
    (b.extractLsb' 0 64 = b'.extractLsb' 0 64 →
      exec (.decBc1 b d st) s = exec (.decBc1 b' d st) s ∧ exec (.decBc1a b d st) s = exec (.decBc1a b' d st) s) ∧
    (b.extractLsb' 0 16 = b'.extractLsb' 0 16 →
      exec (.expand565 b d st) s = exec (.expand565 b' d' st') s ∧ exec (.apal b d st) s = exec (.apal b' d' st') s) ∧
    (b.extractLsb' 0 32 = b'.extractLsb' 0 32 →
      exec (.cpalBc1 b d st) s = exec (.cpalBc1 b' d' st') s ∧ exec (.cpalBc1a b d st) s = exec (.cpalBc1a b' d' st') s ∧
      exec (.cpal4c b d st) s = exec (.cpal4c b' d' st') s)

/-- 20_memory.md R46: the 64 addresses of a decode are distinct, and the order of its writes does not change the result. -/
def Obligations.TileWriteOrderIrrelevant : Prop :=
  ∀ (dst stride : Nat) (tile : Tile), 16 ≤ stride →
    ((tileBytes dst stride tile).map (·.1)).Nodup ∧
    ∀ (m : Memory) (l : List Host.Cell), Memory.wf m → l.Perm (tileBytes dst stride tile) →
      Memory.writeAll m l = tileWrite dst stride tile m

/-! ## Several blocks, several units -/

/-- 20_memory.md R58: the windows of two distinct blocks of an image share no byte, and together they are the raster. -/
def Obligations.GridWindowsTileTheRaster : Prop :=
  ∀ base width height : Nat,
    (∀ bx bY bx' bY', bx < gridBlocks width → bx' < gridBlocks width → (bx, bY) ≠ (bx', bY') →
      (gridWindow base width bx bY).Disjoint (gridWindow base width bx' bY')) ∧
    (∀ a, (base ≤ a ∧ a < base + gridBytes width height) ↔
      ∃ bx bY, bx < gridBlocks width ∧ bY < gridBlocks height ∧ (gridWindow base width bx bY).contains a = true)

/-- 70_reset_and_hazards.md R179 on one unit: decodes of pairwise disjoint windows leave the same `M` in any order. -/
def Obligations.BlockOrderIrrelevant : Prop :=
  ∀ (l l' : List Instr) (s : State), l.Perm l' → s.busy = 0 → Memory.wf s.mem →
    (∀ i ∈ l, i.WellFormed s.params ∧ ∃ w, commandWindow s.params i = some w) →
    l.Pairwise (fun i j => ∀ w v, commandWindow s.params i = some w → commandWindow s.params j = some v → w.Disjoint v) →
    ∃ t t', Host.Core.run core l.length (s.setInputs (commandsOf s.params l)) = .next t ∧
      Host.Core.run core l'.length (s.setInputs (commandsOf s.params l')) = .next t' ∧
      State.mem t = State.mem t'

/-- 60_exceptions.md R162: commands `i` and `j` in flight at once on two units, completing in either order. Each byte both
write ends with one of the two values; each byte one of them writes ends with that value; no other byte changes. Which
events make two commands in flight together is log 18; that a unit is turned to by `select` is log 8. -/
def Obligations.UnitsRaceByteByByte : Prop :=
  ∀ (s : State) (k : Nat) (u : UnitRegs) (i j : Instr) (rest : List HostEvent),
    s.busy = 0 → s.others[k]? = some u → u.inFlight = none → i.WellFormed s.params → j.WellFormed s.params →
    (∃ t, Host.Core.run core 7 (s.setInputs (.present (encode s.params i) :: .select k :: .present (encode s.params j) ::
        .select k :: .await :: .select k :: .await :: rest)) = .next t ∧
      ∀ a, EndsWithEither (Memory.read s.mem a) (valueWritten s.params i a) (valueWritten s.params j a)
        (Memory.read (State.mem t) a)) ∧
    (∃ t, Host.Core.run core 6 (s.setInputs (.present (encode s.params i) :: .select k :: .present (encode s.params j) ::
        .await :: .select k :: .await :: rest)) = .next t ∧
      ∀ a, EndsWithEither (Memory.read s.mem a) (valueWritten s.params i a) (valueWritten s.params j a)
        (Memory.read (State.mem t) a))

/-- 60_exceptions.md R162, one completion at a time (log 18): the command in flight leaves its own value in the bytes
`landed` and changes no other byte; it may leave a byte of its window out only if another unit wrote that byte since it was
accepted; and the units in flight are told of exactly the bytes landed, so no unit can keep an older value. -/
def Obligations.CompletionKeepsOnlyRivalBytes : Prop :=
  ∀ (s : State) (i : Instr) (rest : List HostEvent), s.inputs = .await :: rest → s.inFlight = some i →
    ∃ (t : State) (landed : List Nat), step s = .next t ∧
      (∀ a ∈ landed, ∃ v, valueWritten s.params i a = some v ∧ Memory.read t.mem a = some v) ∧
      (∀ a, a ∉ landed → Memory.read t.mem a = Memory.read s.mem a) ∧
      (∀ a v, valueWritten s.params i a = some v → a ∉ s.rivals → a ∈ landed) ∧
      t.others = announceTo landed s.others

/-- 60_exceptions.md R162 and 70_reset_and_hazards.md R177: while `i` is in flight on one unit, another unit completes `j`
and accepts `k`; the two in flight complete in either order. Where `k` writes, `j` is overwritten: the byte ends with `k`'s
value or with `i`'s, never with `j`'s (log 8 and log 18 for the events). -/
def Obligations.SupersededValueNeverReturns : Prop :=
  ∀ (s : State) (n : Nat) (u : UnitRegs) (i j k : Instr) (rest : List HostEvent),
    s.busy = 0 → s.others[n]? = some u → u.inFlight = none →
    i.WellFormed s.params → j.WellFormed s.params → k.WellFormed s.params →
    (∃ t, Host.Core.run core 8 (s.setInputs (.present (encode s.params i) :: .select n :: .command (encode s.params j) ::
        .present (encode s.params k) :: .select n :: .await :: .select n :: .await :: rest)) = .next t ∧
      ∀ a, EndsWithoutSuperseded (Memory.read s.mem a) (valueWritten s.params j a) (valueWritten s.params k a)
        (valueWritten s.params i a) (Memory.read (State.mem t) a)) ∧
    (∃ t, Host.Core.run core 7 (s.setInputs (.present (encode s.params i) :: .select n :: .command (encode s.params j) ::
        .present (encode s.params k) :: .await :: .select n :: .await :: rest)) = .next t ∧
      ∀ a, EndsWithoutSuperseded (Memory.read s.mem a) (valueWritten s.params j a) (valueWritten s.params k a)
        (valueWritten s.params i a) (Memory.read (State.mem t) a))

/-- 70_reset_and_hazards.md R177: a later command on the same unit leaves its own bytes where it writes, the earlier one's
elsewhere, and `STATUS` and `RES` as it alone leaves them, whatever the earlier one left. -/
def Obligations.LaterDecodeOverwrites : Prop :=
  ∀ (i j : Instr) (s : State), ∃ t u v, exec i s = .next t ∧ exec j t = .next u ∧
    (∀ a, Memory.read u.mem a =
      ((valueWritten s.params j a).or (valueWritten s.params i a)).or (Memory.read s.mem a)) ∧
    exec j (State.resetWith s.params 0) = .next v ∧ u.status = v.status ∧ u.res = v.res

/-- 60_exceptions.md R162: units share no state but `M`. A command on one unit leaves the registers of every other unit
alone, and turning to a unit and back changes nothing. That a unit is turned to by `select`, and that `others` lists the
units not turned to, is the model's choice (log 8). -/
def Obligations.UnitsShareOnlyMemory : Prop :=
  (∀ (i : Instr) (s t : State), exec i s = .next t → t.others = s.others) ∧
  (∀ (s t : State) (cmd : Nat), hostCommand cmd s = .next t →
    t.others.map (fun u => (u.status, u.res, u.inFlight)) = s.others.map (fun u => (u.status, u.res, u.inFlight))) ∧
  (∀ (s : State) (k : Nat), k < s.others.length → ∃ t, hostSelect k s = .next t ∧ hostSelect k t = .next s ∧ t.mem = s.mem)

/-! ## Assembler -/

/-- 30_encoding.md R71, R72: the expansion of every pseudo-instruction; an immediate out of range is refused. -/
def Obligations.PseudoInstructionExpansions : Prop :=
  ∀ (p : Params) (ops : List AsmOperand) (c d : Nat),
    assemble p ⟨.decDxt1, ops⟩ = assemble p ⟨.decBc1a, ops⟩ ∧
    assemble p ⟨.decDxt5, ops⟩ = assemble p ⟨.decBc3, ops⟩ ∧
    (c ≤ 0xFFFF → assemble p ⟨.expand565, [.imm c]⟩ =
      assemble p ⟨.expand565, [.block [BitVec.ofNat 8 c, BitVec.ofNat 8 (c / 256)]]⟩) ∧
    (0xFFFF < c → assemble p ⟨.expand565, [.imm c]⟩ = none) ∧
    (∀ m, m = .cpalBc1 ∨ m = .cpalBc1a ∨ m = .cpal4c →
      (c ≤ 0xFFFF → d ≤ 0xFFFF → assemble p ⟨m, [.imm c, .imm d]⟩ =
        assemble p ⟨m, [.block [BitVec.ofNat 8 c, BitVec.ofNat 8 (c / 256), BitVec.ofNat 8 d, BitVec.ofNat 8 (d / 256)]]⟩) ∧
      (0xFFFF < c ∨ 0xFFFF < d → assemble p ⟨m, [.imm c, .imm d]⟩ = none)) ∧
    (c ≤ 0xFF → d ≤ 0xFF → assemble p ⟨.apal, [.imm c, .imm d]⟩ =
      assemble p ⟨.apal, [.block [BitVec.ofNat 8 c, BitVec.ofNat 8 d]]⟩) ∧
    (0xFF < c ∨ 0xFF < d → assemble p ⟨.apal, [.imm c, .imm d]⟩ = none)

/-- 30_encoding.md R70: RAWCMD spells any command, and the immediate form of EXPAND565 carries its colour in `blk[15:0]`. -/
def Obligations.RawcmdSpellsAnyCommand : Prop :=
  (∀ (p : Params) (i : Instr), i.WellFormed p →
    assemble p ⟨.rawcmd, [.num i.op.toNat, .num i.dst, .num i.stride,
      .block ((List.range 16).map fun k => i.blk.extractLsb' (8 * k) 8)]⟩ = some (encode p i)) ∧
  (∀ (p : Params) (c : Nat), c ≤ 0xFFFF →
    assemble p ⟨.expand565, [.imm c]⟩ = some (encode p (.expand565 (BitVec.ofNat 128 c) 0 0)))
end

