-- ==== Sys2Proof/Laws/State.lean ====
section
/-! SUPPORT. One lemma per field per update of State, each true by unfolding, so that no proof unfolds a record update. -/

namespace Sys2Proof
namespace Machine

section SetMem
variable (s : State) (m : Memory)
@[simp] theorem State.setMem_params : (s.setMem m).params = s.params := rfl
@[simp] theorem State.setMem_mem : (s.setMem m).mem = m := rfl
@[simp] theorem State.setMem_status : (s.setMem m).status = s.status := rfl
@[simp] theorem State.setMem_res : (s.setMem m).res = s.res := rfl
@[simp] theorem State.setMem_inFlight : (s.setMem m).inFlight = s.inFlight := rfl
@[simp] theorem State.setMem_rivals : (s.setMem m).rivals = s.rivals := rfl
@[simp] theorem State.setMem_others : (s.setMem m).others = s.others := rfl
@[simp] theorem State.setMem_inputs : (s.setMem m).inputs = s.inputs := rfl
@[simp] theorem State.setMem_bus : (s.setMem m).bus = s.bus := rfl
@[simp] theorem State.setMem_draws : (s.setMem m).draws = s.draws := rfl
@[simp] theorem State.setMem_busy : (s.setMem m).busy = s.busy := rfl
@[simp] theorem State.setMem_self : s.setMem s.mem = s := rfl
@[simp] theorem State.setMem_setMem (m' : Memory) : (s.setMem m).setMem m' = s.setMem m' := rfl
end SetMem

section Complete
variable (s : State) (e : ErrCode) (b : Bool) (r : BitVec 128)
@[simp] theorem State.complete_params : (s.complete e b r).params = s.params := rfl
@[simp] theorem State.complete_mem : (s.complete e b r).mem = s.mem := rfl
@[simp] theorem State.complete_status : (s.complete e b r).status = statusWord e b := rfl
@[simp] theorem State.complete_res : (s.complete e b r).res = r := rfl
@[simp] theorem State.complete_inFlight : (s.complete e b r).inFlight = none := rfl
@[simp] theorem State.complete_rivals : (s.complete e b r).rivals = [] := rfl
@[simp] theorem State.complete_others : (s.complete e b r).others = s.others := rfl
@[simp] theorem State.complete_inputs : (s.complete e b r).inputs = s.inputs := rfl
@[simp] theorem State.complete_bus : (s.complete e b r).bus = s.bus := rfl
@[simp] theorem State.complete_draws : (s.complete e b r).draws = s.draws := rfl
@[simp] theorem State.complete_busy : (s.complete e b r).busy = 0 := rfl
@[simp] theorem State.raise_eq : s.raise e = s.complete e false 0 := rfl
end Complete

section SetInputs
variable (s : State) (l : List HostEvent)
@[simp] theorem State.setInputs_params : (s.setInputs l).params = s.params := rfl
@[simp] theorem State.setInputs_mem : (s.setInputs l).mem = s.mem := rfl
@[simp] theorem State.setInputs_status : (s.setInputs l).status = s.status := rfl
@[simp] theorem State.setInputs_res : (s.setInputs l).res = s.res := rfl
@[simp] theorem State.setInputs_inFlight : (s.setInputs l).inFlight = s.inFlight := rfl
@[simp] theorem State.setInputs_rivals : (s.setInputs l).rivals = s.rivals := rfl
@[simp] theorem State.setInputs_others : (s.setInputs l).others = s.others := rfl
@[simp] theorem State.setInputs_inputs : (s.setInputs l).inputs = l := rfl
@[simp] theorem State.setInputs_bus : (s.setInputs l).bus = s.bus := rfl
@[simp] theorem State.setInputs_draws : (s.setInputs l).draws = s.draws := rfl
@[simp] theorem State.setInputs_busy : (s.setInputs l).busy = s.busy := rfl
@[simp] theorem State.setInputs_setInputs (l' : List HostEvent) : (s.setInputs l).setInputs l' = s.setInputs l' := rfl
end SetInputs

section ClearRegs
variable (s : State)
@[simp] theorem State.clearRegs_params : s.clearRegs.params = s.params := rfl
@[simp] theorem State.clearRegs_mem : s.clearRegs.mem = s.mem := rfl
@[simp] theorem State.clearRegs_status : s.clearRegs.status = 0 := rfl
@[simp] theorem State.clearRegs_res : s.clearRegs.res = 0 := rfl
@[simp] theorem State.clearRegs_inFlight : s.clearRegs.inFlight = none := rfl
@[simp] theorem State.clearRegs_rivals : s.clearRegs.rivals = [] := rfl
@[simp] theorem State.clearRegs_others : s.clearRegs.others = s.others := rfl
@[simp] theorem State.clearRegs_inputs : s.clearRegs.inputs = s.inputs := rfl
@[simp] theorem State.clearRegs_bus : s.clearRegs.bus = s.bus := rfl
@[simp] theorem State.clearRegs_draws : s.clearRegs.draws = s.draws := rfl
end ClearRegs

section Completed
variable (s : State) (x : BitVec 8) (r : BitVec 128)
@[simp] theorem State.completed_mem : (s.completed x r).mem = s.mem := rfl
@[simp] theorem State.completed_status : (s.completed x r).status = x := rfl
@[simp] theorem State.completed_res : (s.completed x r).res = r := rfl
@[simp] theorem State.completed_busy : (s.completed x r).busy = 0 := rfl
theorem State.completed_sameSystem : SameSystem s (s.completed x r) := ⟨rfl, rfl, rfl, rfl, rfl⟩

/-- Completing and the statements' `completed` are the same update. -/
theorem State.complete_eq_completed (e : ErrCode) (b : Bool) : s.complete e b r = s.completed (statusWord e b) r := rfl
end Completed

section Accept
variable (s : State) (i : Instr)
@[simp] theorem State.accept_params : (s.accept i).params = s.params := rfl
@[simp] theorem State.accept_mem : (s.accept i).mem = s.mem := rfl
@[simp] theorem State.accept_status : (s.accept i).status = s.status := rfl
@[simp] theorem State.accept_res : (s.accept i).res = s.res := rfl
@[simp] theorem State.accept_inFlight : (s.accept i).inFlight = some i := rfl
@[simp] theorem State.accept_rivals : (s.accept i).rivals = [] := rfl
@[simp] theorem State.accept_others : (s.accept i).others = s.others := rfl
@[simp] theorem State.accept_inputs : (s.accept i).inputs = s.inputs := rfl
@[simp] theorem State.accept_bus : (s.accept i).bus = s.bus := rfl
@[simp] theorem State.accept_draws : (s.accept i).draws = s.draws := rfl
@[simp] theorem State.accept_busy : (s.accept i).busy = 1 := rfl
end Accept

section SetBus
variable (s : State) (v : BitVec 128)
@[simp] theorem State.setBus_params : (s.setBus v).params = s.params := rfl
@[simp] theorem State.setBus_mem : (s.setBus v).mem = s.mem := rfl
@[simp] theorem State.setBus_status : (s.setBus v).status = s.status := rfl
@[simp] theorem State.setBus_res : (s.setBus v).res = s.res := rfl
@[simp] theorem State.setBus_inFlight : (s.setBus v).inFlight = s.inFlight := rfl
@[simp] theorem State.setBus_rivals : (s.setBus v).rivals = s.rivals := rfl
@[simp] theorem State.setBus_others : (s.setBus v).others = s.others := rfl
@[simp] theorem State.setBus_inputs : (s.setBus v).inputs = s.inputs := rfl
@[simp] theorem State.setBus_bus : (s.setBus v).bus = v := rfl
@[simp] theorem State.setBus_draws : (s.setBus v).draws = s.draws := rfl
@[simp] theorem State.setBus_busy : (s.setBus v).busy = s.busy := rfl
end SetBus

section Swap
variable (s : State) (k : Nat) (u : UnitRegs)
@[simp] theorem State.swap_params : (s.swap k u).params = s.params := rfl
@[simp] theorem State.swap_mem : (s.swap k u).mem = s.mem := rfl
@[simp] theorem State.swap_status : (s.swap k u).status = u.status := rfl
@[simp] theorem State.swap_res : (s.swap k u).res = u.res := rfl
@[simp] theorem State.swap_inFlight : (s.swap k u).inFlight = u.inFlight := rfl
@[simp] theorem State.swap_rivals : (s.swap k u).rivals = u.rivals := rfl
@[simp] theorem State.swap_others : (s.swap k u).others = s.others.set k s.unit := rfl
@[simp] theorem State.swap_inputs : (s.swap k u).inputs = s.inputs := rfl
@[simp] theorem State.swap_bus : (s.swap k u).bus = s.bus := rfl
@[simp] theorem State.swap_draws : (s.swap k u).draws = s.draws := rfl
end Swap

section SpoilWindow
variable (s : State) (w : Window)
@[simp] theorem State.spoilWindow_params : (s.spoilWindow w).params = s.params := by simp only [State.spoilWindow]
@[simp] theorem State.spoilWindow_mem : (s.spoilWindow w).mem = spoilBytes s.draws w.addresses s.mem := by
  simp only [State.spoilWindow]
@[simp] theorem State.spoilWindow_status : (s.spoilWindow w).status = s.status := by simp only [State.spoilWindow]
@[simp] theorem State.spoilWindow_res : (s.spoilWindow w).res = s.res := by simp only [State.spoilWindow]
@[simp] theorem State.spoilWindow_inFlight : (s.spoilWindow w).inFlight = s.inFlight := by simp only [State.spoilWindow]
@[simp] theorem State.spoilWindow_rivals : (s.spoilWindow w).rivals = s.rivals := by simp only [State.spoilWindow]
@[simp] theorem State.spoilWindow_others : (s.spoilWindow w).others = announceTo w.addresses s.others := by simp only [State.spoilWindow]
@[simp] theorem State.spoilWindow_inputs : (s.spoilWindow w).inputs = s.inputs := by simp only [State.spoilWindow]
@[simp] theorem State.spoilWindow_bus : (s.spoilWindow w).bus = s.bus := by simp only [State.spoilWindow]
@[simp] theorem State.spoilWindow_draws : (s.spoilWindow w).draws = s.draws + 1 := by simp only [State.spoilWindow]
end SpoilWindow

section Announce
variable (s : State) (l : List Nat)
@[simp] theorem State.announce_params : (s.announce l).params = s.params := rfl
@[simp] theorem State.announce_mem : (s.announce l).mem = s.mem := rfl
@[simp] theorem State.announce_status : (s.announce l).status = s.status := rfl
@[simp] theorem State.announce_res : (s.announce l).res = s.res := rfl
@[simp] theorem State.announce_inFlight : (s.announce l).inFlight = s.inFlight := rfl
@[simp] theorem State.announce_rivals : (s.announce l).rivals = s.rivals := rfl
@[simp] theorem State.announce_others : (s.announce l).others = announceTo l s.others := rfl
@[simp] theorem State.announce_inputs : (s.announce l).inputs = s.inputs := rfl
@[simp] theorem State.announce_bus : (s.announce l).bus = s.bus := rfl
@[simp] theorem State.announce_draws : (s.announce l).draws = s.draws := rfl
@[simp] theorem State.announce_busy : (s.announce l).busy = s.busy := rfl
end Announce

@[simp] theorem announceTo_length (written : List Nat) (l : List UnitRegs) : (announceTo written l).length = l.length := by
  simp [announceTo]

/-- What an announcement leaves of unit `k`. -/
theorem announceTo_getElem? (written : List Nat) (l : List UnitRegs) (k : Nat) :
    (announceTo written l)[k]? =
      l[k]?.map fun u => if u.inFlight.isSome then { u with rivals := written ++ u.rivals } else u := by
  simp [announceTo]

/-- An announcement leaves the interface registers of every unit alone. -/
theorem announceTo_regs (written : List Nat) (l : List UnitRegs) :
    (announceTo written l).map (fun u => (u.status, u.res, u.inFlight)) =
      l.map (fun u => (u.status, u.res, u.inFlight)) := by
  simp only [announceTo, List.map_map]
  refine List.map_congr_left fun u _ => ?_
  simp only [Function.comp]
  split <;> rfl

/-- With every other unit idle there is no one to tell. -/
theorem announceTo_idle (written : List Nat) (l : List UnitRegs) (h : ∀ u ∈ l, u.inFlight = none) :
    announceTo written l = l := by
  unfold announceTo
  conv_rhs => rw [← List.map_id l]
  exact List.map_congr_left fun u hu => by simp [h u hu]

theorem State.announce_idle (s : State) (l : List Nat) (h : ∀ u ∈ s.others, u.inFlight = none) : s.announce l = s := by
  unfold State.announce
  rw [announceTo_idle l s.others h]

/-- With nothing written there is nothing to tell. -/
@[simp] theorem announceTo_nil (l : List UnitRegs) : announceTo [] l = l := by
  unfold announceTo
  conv_rhs => rw [← List.map_id l]
  exact List.map_congr_left fun u _ => by simp

/-- `BUSY` is 0 exactly when no command is in flight. -/
theorem State.busy_eq_zero (s : State) : s.busy = 0 ↔ s.inFlight = none := by
  cases h : s.inFlight <;> simp [State.busy, h]

/-- `BUSY` is 1 exactly when a command is in flight. -/
theorem State.busy_eq_one (s : State) : s.busy = 1 ↔ ∃ i, s.inFlight = some i := by
  cases h : s.inFlight <;> simp [State.busy, h]

end Machine
end Sys2Proof
end

