-- ==== Sys2Proof/Laws/Memory.lean ====
section
/-! SUPPORT. The laws of bytes of `M`: read after write, the canonical form, equality of canonical memories. -/

namespace Sys2Proof
namespace Machine

@[simp] theorem Memory.read_nil (a : Nat) : Memory.read [] a = none := rfl

/-- Reading after a write: the written byte at its address, the old byte elsewhere. -/
theorem Memory.read_write (m : Memory) (a b : Nat) (v : Byte) :
    Memory.read (Memory.write m a v) b = if b = a then some v else Memory.read m b := by
  induction m with
  | nil => simp [Memory.write, Memory.read]
  | cons c m ih =>
    obtain ⟨k, w⟩ := c
    simp only [Memory.write]
    split
    · simp [Memory.read]
    · split
      · subst_vars
        simp only [Memory.read]
        split <;> rfl
      · simp only [Memory.read, ih]
        split
        · subst_vars
          rw [if_neg (by omega)]
        · rfl

@[simp] theorem Memory.read_write_same (m : Memory) (a : Nat) (v : Byte) :
    Memory.read (Memory.write m a v) a = some v := by
  simp [Memory.read_write]

theorem Memory.read_write_of_ne (m : Memory) {a b : Nat} (v : Byte) (h : b ≠ a) :
    Memory.read (Memory.write m a v) b = Memory.read m b := by
  simp [Memory.read_write, h]

/-- A cell of a written memory is the written one or was there. -/
theorem Memory.mem_write {m : Memory} {a : Nat} {v : Byte} {c : Host.Cell} (h : c ∈ Memory.write m a v) :
    c = (a, v) ∨ c ∈ m := by
  induction m with
  | nil => simpa [Memory.write] using h
  | cons d m ih =>
    obtain ⟨k, w⟩ := d
    simp only [Memory.write] at h
    split at h
    · simpa using h
    · split at h
      · rcases List.mem_cons.mp h with h | h
        · exact .inl h
        · exact .inr (List.mem_cons_of_mem _ h)
      · rcases List.mem_cons.mp h with h | h
        · exact .inr (by simp [h])
        · exact (ih h).imp id (List.mem_cons_of_mem _)

/-- A write keeps the canonical form. -/
theorem Memory.wf_write {m : Memory} (h : Memory.wf m) (a : Nat) (v : Byte) : Memory.wf (Memory.write m a v) := by
  induction m with
  | nil => simp [Memory.write]
  | cons c m ih =>
    obtain ⟨k, w⟩ := c
    obtain ⟨hk, hm⟩ := List.pairwise_cons.mp h
    simp only [Memory.write]
    split
    · refine List.pairwise_cons.mpr ⟨fun d hd => ?_, h⟩
      rcases List.mem_cons.mp hd with rfl | hd
      · assumption
      · have := hk d hd
        omega
    · split
      · subst_vars
        exact List.pairwise_cons.mpr ⟨hk, hm⟩
      · refine List.pairwise_cons.mpr ⟨fun d hd => ?_, ih hm⟩
        rcases Memory.mem_write hd with rfl | hd
        · simp only
          omega
        · exact hk d hd

/-- No byte of a canonical memory lies below its first address. -/
theorem Memory.read_eq_none_of_lt {m : Memory} {a : Nat} (h : ∀ c ∈ m, a < c.1) : Memory.read m a = none := by
  induction m with
  | nil => rfl
  | cons c m ih =>
    have hc := h c (by simp)
    simp only [Memory.read]
    rw [if_neg (by omega)]
    exact ih fun d hd => h d (List.mem_cons_of_mem _ hd)

/-- Canonical memories that read the same everywhere are the same list. -/
theorem Memory.ext {m n : Memory} (hm : Memory.wf m) (hn : Memory.wf n)
    (h : ∀ a, Memory.read m a = Memory.read n a) : m = n := by
  induction m generalizing n with
  | nil =>
    cases n with
    | nil => rfl
    | cons d n => have := h d.1; simp [Memory.read] at this
  | cons c m ih =>
    cases n with
    | nil => have := h c.1; simp [Memory.read] at this
    | cons d n =>
      obtain ⟨k, v⟩ := c
      obtain ⟨l, w⟩ := d
      obtain ⟨hk, hm'⟩ := List.pairwise_cons.mp hm
      obtain ⟨hl, hn'⟩ := List.pairwise_cons.mp hn
      have hkl : k = l := by
        rcases Nat.lt_trichotomy k l with hlt | he | hlt
        · have hn0 : Memory.read ((l, w) :: n) k = none :=
            Memory.read_eq_none_of_lt fun e he => by
              rcases List.mem_cons.mp he with rfl | he
              · exact hlt
              · have := hl e he
                simp only at this
                omega
          have := h k
          rw [hn0] at this
          simp [Memory.read] at this
        · exact he
        · have hn0 : Memory.read ((k, v) :: m) l = none :=
            Memory.read_eq_none_of_lt fun e he => by
              rcases List.mem_cons.mp he with rfl | he
              · exact hlt
              · have := hk e he
                simp only at this
                omega
          have := h l
          rw [hn0] at this
          simp [Memory.read] at this
      subst hkl
      have hv : v = w := by simpa [Memory.read] using h k
      subst hv
      congr 1
      refine ih hm' hn' fun a => ?_
      by_cases ha : a = k
      · subst ha
        rw [Memory.read_eq_none_of_lt hk, Memory.read_eq_none_of_lt hl]
      · simpa [Memory.read, ha] using h a

@[simp] theorem Memory.writeAll_nil (m : Memory) : Memory.writeAll m [] = m := rfl

@[simp] theorem Memory.writeAll_cons (m : Memory) (c : Host.Cell) (l : List Host.Cell) :
    Memory.writeAll m (c :: l) = Memory.writeAll (Memory.write m c.1 c.2) l := rfl

theorem Memory.wf_writeAll {m : Memory} (h : Memory.wf m) (l : List Host.Cell) : Memory.wf (Memory.writeAll m l) := by
  induction l generalizing m with
  | nil => exact h
  | cons c l ih => exact ih (Memory.wf_write h c.1 c.2)

/-- A cell after a list of writes is one of them or was there. -/
theorem Memory.mem_writeAll {m : Memory} {l : List Host.Cell} {c : Host.Cell} (h : c ∈ Memory.writeAll m l) :
    c ∈ l ∨ c ∈ m := by
  induction l generalizing m with
  | nil => exact .inr h
  | cons d l ih =>
    rcases ih h with h | h
    · exact .inl (List.mem_cons_of_mem _ h)
    · exact (Memory.mem_write h).imp (fun e => by simp [e]) id

/-- A list of writes leaves every address it does not name. -/
theorem Memory.read_writeAll_of_notMem {l : List Host.Cell} {a : Nat} (h : ∀ c ∈ l, c.1 ≠ a) (m : Memory) :
    Memory.read (Memory.writeAll m l) a = Memory.read m a := by
  induction l generalizing m with
  | nil => rfl
  | cons c l ih =>
    rw [Memory.writeAll_cons, ih fun d hd => h d (List.mem_cons_of_mem _ hd)]
    exact Memory.read_write_of_ne m c.2 (Ne.symm (h c (by simp)))

/-- A list of writes to distinct addresses leaves each written byte at its address. -/
theorem Memory.read_writeAll_of_mem {l : List Host.Cell} (hd : (l.map (·.1)).Nodup) {c : Host.Cell} (hc : c ∈ l)
    (m : Memory) : Memory.read (Memory.writeAll m l) c.1 = some c.2 := by
  induction l generalizing m with
  | nil => simp at hc
  | cons d l ih =>
    obtain ⟨hn, hd'⟩ := List.nodup_cons.mp hd
    rw [Memory.writeAll_cons]
    rcases List.mem_cons.mp hc with rfl | hc
    · rw [Memory.read_writeAll_of_notMem fun e he h => hn (List.mem_map.mpr ⟨e, he, h⟩)]
      simp
    · exact ih hd' hc _

end Machine
end Sys2Proof
end

