-- ==== Sys2Proof/Laws/Window.lean ====
section
/-! SUPPORT. What a window holds and what a tile write does to `M`. -/

namespace Sys2Proof
namespace Machine

@[simp] theorem mem_quad (r : Fin 4) : r ∈ quad := by
  revert r
  decide

/-- A window holds the four rows of 16 bytes (20_memory.md R45). -/
theorem Window.contains_iff (w : Window) (a : Nat) :
    w.contains a = true ↔ ∃ row : Fin 4, w.dst + row.val * w.stride ≤ a ∧ a ≤ w.dst + row.val * w.stride + 15 := by
  simp [Window.contains]

/-- The addresses of a window are those it holds. -/
theorem Window.mem_addresses (w : Window) (a : Nat) : a ∈ w.addresses ↔ w.contains a = true := by
  rw [Window.contains_iff]
  simp only [Window.addresses, List.mem_flatMap, mem_quad, true_and, List.mem_map, List.mem_range]
  constructor
  · rintro ⟨row, c, hc, rfl⟩
    exact ⟨row, by omega, by omega⟩
  · rintro ⟨row, h₁, h₂⟩
    exact ⟨row, a - (w.dst + row.val * w.stride), by omega, by omega⟩

/-- The addresses a tile write writes are those of its window, in the same order. -/
theorem tileBytes_addresses (dst stride : Nat) (tile : Tile) :
    (tileBytes dst stride tile).map (·.1) = (Window.mk dst stride).addresses := by
  simp [tileBytes, pixelBytes, Window.addresses, quad, List.range_succ, Nat.add_assoc]

/-- The 64 addresses are distinct (20_memory.md R46). -/
theorem Window.addresses_nodup {w : Window} (h : 16 ≤ w.stride) : w.addresses.Nodup := by
  refine List.nodup_flatMap.mpr ⟨fun row _ => ?_, ?_⟩
  · exact List.nodup_range.map fun a b hab => by simpa using hab
  · simp only [quad, List.pairwise_cons, List.mem_cons, List.not_mem_nil, or_false, Function.onFun,
      List.disjoint_left, List.mem_map, List.mem_range]
    refine ⟨?_, ?_, ?_, by simp, by simp⟩ <;>
    · intro row hrow a
      rintro ⟨c, hc, rfl⟩ ⟨d, hd, he⟩
      rcases hrow with rfl | rfl | rfl <;> simp at he <;> omega

/-- A tile write leaves every byte outside its window (20_memory.md R45). -/
theorem read_tileWrite_of_outside {dst stride a : Nat} (tile : Tile) (m : Memory)
    (h : Window.contains ⟨dst, stride⟩ a = false) : Memory.read (tileWrite dst stride tile m) a = Memory.read m a := by
  refine Memory.read_writeAll_of_notMem (fun c hc he => ?_) m
  have hm : a ∈ (Window.mk dst stride).addresses := by
    rw [← tileBytes_addresses dst stride tile, ← he]
    exact List.mem_map_of_mem hc
  rw [Window.mem_addresses, h] at hm
  exact absurd hm (by simp)

/-- A tile write leaves in each byte of its window a value that does not depend on the memory before (20_memory.md R41). -/
theorem read_tileWrite_of_inside {dst stride a : Nat} (tile : Tile) (hs : 16 ≤ stride)
    (h : Window.contains ⟨dst, stride⟩ a = true) :
    ∃ v, (a, v) ∈ tileBytes dst stride tile ∧ ∀ m, Memory.read (tileWrite dst stride tile m) a = some v := by
  rw [← Window.mem_addresses, ← tileBytes_addresses dst stride tile] at h
  obtain ⟨⟨b, v⟩, hc, rfl⟩ := List.mem_map.mp h
  refine ⟨v, hc, fun m => ?_⟩
  refine Memory.read_writeAll_of_mem ?_ hc m
  rw [tileBytes_addresses]
  exact Window.addresses_nodup hs

/-- A tile write leaves each pixel at its place (20_memory.md R43, R44). -/
theorem holdsPixel_tileWrite (dst : Nat) {stride : Nat} (tile : Tile) (m : Memory) (hs : 16 ≤ stride) (row col : Fin 4) :
    HoldsPixel (tileWrite dst stride tile m) (dst + row.val * stride + col.val * 4) (tile row col) := by
  have hd : ((tileBytes dst stride tile).map (·.1)).Nodup := by
    rw [tileBytes_addresses]
    exact Window.addresses_nodup hs
  have hin : ∀ c ∈ pixelBytes (dst + row.val * stride + col.val * 4) (tile row col), c ∈ tileBytes dst stride tile :=
    fun c hc => List.mem_flatMap.mpr ⟨row, mem_quad row, List.mem_flatMap.mpr ⟨col, mem_quad col, hc⟩⟩
  refine ⟨?_, ?_, ?_, ?_⟩
  · exact Memory.read_writeAll_of_mem hd (hin (_, (tile row col).r) (by simp [pixelBytes])) m
  · exact Memory.read_writeAll_of_mem hd (hin (_, (tile row col).g) (by simp [pixelBytes])) m
  · exact Memory.read_writeAll_of_mem hd (hin (_, (tile row col).b) (by simp [pixelBytes])) m
  · exact Memory.read_writeAll_of_mem hd (hin (_, (tile row col).a) (by simp [pixelBytes])) m

theorem wf_tileWrite {m : Memory} (h : Memory.wf m) (dst stride : Nat) (tile : Tile) :
    Memory.wf (tileWrite dst stride tile m) :=
  Memory.wf_writeAll h _

/-- A cell after a tile write lies in the window or was there. -/
theorem mem_tileWrite {m : Memory} {dst stride : Nat} {tile : Tile} {c : Host.Cell}
    (h : c ∈ tileWrite dst stride tile m) : Window.contains ⟨dst, stride⟩ c.1 = true ∨ c ∈ m := by
  refine (Memory.mem_writeAll h).imp (fun hc => ?_) id
  rw [← Window.mem_addresses, ← tileBytes_addresses dst stride tile]
  exact List.mem_map_of_mem hc

/-- A decode passes its checks exactly when its stride is legal and its window lies in `M` (60_exceptions.md R151, R152). -/
theorem decodeError_eq_none (p : Params) (dst stride : Nat) :
    decodeError p dst stride = none ↔ 16 ≤ stride ∧ dst + 3 * stride + 15 ≤ 2 ^ p.aw - 1 := by
  unfold decodeError
  split
  · simp
    omega
  · split <;> simp <;> omega

/-- A command has a window exactly when it is a decode that passes its checks. -/
theorem commandWindow_eq_some {p : Params} {i : Instr} {w : Window} :
    commandWindow p i = some w ↔
      i.isDecode = true ∧ 16 ≤ i.stride ∧ i.dst + 3 * i.stride + 15 ≤ 2 ^ p.aw - 1 ∧ w = ⟨i.dst, i.stride⟩ := by
  unfold commandWindow
  simp only [decodeError_eq_none]
  split
  · rename_i h
    simp only [Option.some.injEq]
    exact ⟨fun e => ⟨h.1, h.2.1, h.2.2, e.symm⟩, fun e => e.2.2.2.symm⟩
  · rename_i h
    simp only [reduceCtorEq, false_iff]
    exact fun e => h ⟨e.1, e.2.1, e.2.2.1⟩

/-- The window of a command lies in `M` and its rows do not overlap. -/
theorem commandWindow_bounds {p : Params} {i : Instr} {w : Window} (h : commandWindow p i = some w) :
    16 ≤ w.stride ∧ ∀ a, w.contains a = true → a < p.memSize := by
  obtain ⟨-, hs, hr, rfl⟩ := commandWindow_eq_some.mp h
  refine ⟨hs, fun a ha => ?_⟩
  obtain ⟨row, -, h₂⟩ := (Window.contains_iff _ a).mp ha
  have hrow : row.val * i.stride ≤ 3 * i.stride := Nat.mul_le_mul_right _ (by omega)
  have : 0 < 2 ^ p.aw := Nat.two_pow_pos _
  simp only at h₂
  unfold Params.memSize
  omega

end Machine
end Sys2Proof
end

