-- ==== Sys2Proof/Laws/Exec.lean ====
section
/-! SUPPORT. One spec lemma per meaning and one inversion of `exec`, which the proofs cite instead of unfolding it. -/

namespace Sys2Proof
namespace Machine

/-- Everything a decode can do: refuse by stride, refuse by range, or write its tile. -/
theorem decodeInto_cases (dst stride : Nat) (tile : Tile) (premul : Bool) (s : State) :
    (stride < 16 ∧ decodeInto dst stride tile premul s = s.complete .badStride false 0) ∨
    (16 ≤ stride ∧ dst + 3 * stride + 15 > 2 ^ s.params.aw - 1 ∧
      decodeInto dst stride tile premul s = s.complete .dstRange false 0) ∨
    (16 ≤ stride ∧ dst + 3 * stride + 15 ≤ 2 ^ s.params.aw - 1 ∧
      decodeInto dst stride tile premul s = (s.setMem (tileWrite dst stride tile s.mem)).complete .ok premul 0) := by
  unfold decodeInto decodeError
  split
  · rename_i h
    split at h
    · simp only [Option.some.injEq] at h
      subst h
      exact .inl ⟨by assumption, rfl⟩
    · split at h
      · simp only [Option.some.injEq] at h
        subst h
        exact .inr (.inl ⟨by omega, by assumption, rfl⟩)
      · simp at h
  · rename_i h
    split at h
    · simp at h
    · split at h
      · simp at h
      · exact .inr (.inr ⟨by omega, by omega, rfl⟩)

/-- A decode that passes its checks leaves its tile in the window and everything else as it was. -/
theorem decodesTo_decodeInto {dst stride : Nat} (tile : Tile) (premul : Bool) {s : State} (hs : 16 ≤ stride)
    (hr : dst + 3 * stride + 15 ≤ 2 ^ s.params.aw - 1) :
    DecodesTo s (decodeInto dst stride tile premul s) dst stride tile (statusWord .ok premul) := by
  rcases decodeInto_cases dst stride tile premul s with ⟨h, -⟩ | ⟨-, h, -⟩ | ⟨-, -, e⟩
  · omega
  · omega
  · rw [e]
    simp only [DecodesTo, SameSystem, State.complete_mem, State.complete_status, State.complete_res,
      State.complete_busy, State.complete_params, State.complete_others, State.complete_inputs, State.complete_bus,
      State.complete_draws, State.setMem_mem, State.setMem_params, State.setMem_others, State.setMem_inputs,
      State.setMem_bus, State.setMem_draws, and_self, and_true]
    exact ⟨fun row col => holdsPixel_tileWrite dst tile s.mem hs row col,
      fun a ha => read_tileWrite_of_outside tile s.mem ha⟩

/-- The tile a decode command writes; the other commands write none. -/
def commandTile : Instr → Option Tile
  | .decBc1 blk _ _ => some (bc1Tile .bc1 blk)
  | .decBc1a blk _ _ => some (bc1Tile .bc1a blk)
  | .reserved2 _ _ _ => none
  | .decBc3 blk _ _ => some (bc3Tile blk)
  | .expand565 _ _ _ => none
  | .cpalBc1 _ _ _ => none
  | .cpalBc1a _ _ _ => none
  | .cpal4c _ _ _ => none
  | .apal _ _ _ => none
  | .reserved9 _ _ _ => none
  | .reservedA _ _ _ => none
  | .reservedB _ _ _ => none
  | .reservedC _ _ _ => none
  | .reservedD _ _ _ => none
  | .reservedE _ _ _ => none
  | .reservedF _ _ _ => none

/-- Everything a command can do, in every state: it completes, and where it has a window it writes its tile there.
The completion code, `PREMUL` and `RES` depend on the parameters and the command alone (10_state.md R29). -/
theorem exec_spec (p : Params) (i : Instr) :
    ∃ e b r, (∀ s : State, s.params = p → commandWindow p i = none → exec i s = .next (s.complete e b r)) ∧
      (∀ w, commandWindow p i = some w → ∃ tile, commandTile i = some tile ∧ ∀ s : State, s.params = p →
        exec i s = .next ((s.setMem (tileWrite w.dst w.stride tile s.mem)).complete e b r)) := by
  have dec : ∀ (dst stride : Nat) (tile : Tile) (premul : Bool), ∃ e b r,
      (∀ s : State, s.params = p → decodeError p dst stride ≠ none →
        decodeInto dst stride tile premul s = s.complete e b r) ∧
      (decodeError p dst stride = none → ∀ s : State, s.params = p →
        decodeInto dst stride tile premul s = (s.setMem (tileWrite dst stride tile s.mem)).complete e b r) := by
    intro dst stride tile premul
    cases h : decodeError p dst stride with
    | none =>
      refine ⟨.ok, premul, 0, fun _ _ hne => absurd rfl hne, fun _ s hs => ?_⟩
      subst hs
      unfold decodeInto
      rw [h]
    | some e =>
      refine ⟨e, false, 0, fun s hs _ => ?_, fun hne => by simp at hne⟩
      subst hs
      unfold decodeInto
      rw [h]
      rfl
  have lift : ∀ (i : Instr) (tile : Tile) (premul : Bool), i.isDecode = true → commandTile i = some tile →
      (∀ s, exec i s = .next (decodeInto i.dst i.stride tile premul s)) →
      ∃ e b r, (∀ s : State, s.params = p → commandWindow p i = none → exec i s = .next (s.complete e b r)) ∧
        (∀ w, commandWindow p i = some w → ∃ tile, commandTile i = some tile ∧ ∀ s : State, s.params = p →
          exec i s = .next ((s.setMem (tileWrite w.dst w.stride tile s.mem)).complete e b r)) := by
    intro i tile premul hi ht he
    obtain ⟨e, b, r, h₁, h₂⟩ := dec i.dst i.stride tile premul
    refine ⟨e, b, r, fun s hs hw => ?_, fun w hw => ⟨tile, ht, fun s hs => ?_⟩⟩
    · rw [he, h₁ s hs fun h => by simp [commandWindow, hi, h] at hw]
    · obtain ⟨-, hs₁, hr, rfl⟩ := commandWindow_eq_some.mp hw
      rw [he, h₂ ((decodeError_eq_none _ _ _).mpr ⟨hs₁, hr⟩) s hs]
  have plain : ∀ (i : Instr) (e : ErrCode) (r : BitVec 128), i.isDecode = false →
      (∀ s : State, exec i s = .next (s.complete e false r)) →
      ∃ e b r, (∀ s : State, s.params = p → commandWindow p i = none → exec i s = .next (s.complete e b r)) ∧
        (∀ w, commandWindow p i = some w → ∃ tile, commandTile i = some tile ∧ ∀ s : State, s.params = p →
          exec i s = .next ((s.setMem (tileWrite w.dst w.stride tile s.mem)).complete e b r)) := by
    intro i e r hi he
    refine ⟨e, false, r, fun s _ _ => he s, fun w hw => ?_⟩
    rw [commandWindow_eq_some, hi] at hw
    simp at hw
  cases i with
  | decBc1 => exact lift _ _ _ rfl rfl fun _ => rfl
  | decBc1a => exact lift _ _ _ rfl rfl fun _ => rfl
  | decBc3 => exact lift _ _ _ rfl rfl fun _ => rfl
  | _ => exact plain _ _ _ rfl fun _ => rfl

/-- The inversion of `exec`: a command answers a next state, which is `s` completed, its memory as before or with the
command's tile written into its window. -/
theorem exec_cases (i : Instr) (s : State) :
    ∃ e b r m, exec i s = .next ((s.setMem m).complete e b r) ∧
      ((commandWindow s.params i = none ∧ m = s.mem) ∨
        ∃ w tile, commandWindow s.params i = some w ∧ commandTile i = some tile ∧
          m = tileWrite w.dst w.stride tile s.mem) := by
  obtain ⟨e, b, r, h₁, h₂⟩ := exec_spec s.params i
  cases hw : commandWindow s.params i with
  | none => exact ⟨e, b, r, s.mem, by simpa using h₁ s rfl hw, .inl ⟨rfl, rfl⟩⟩
  | some w =>
    obtain ⟨tile, ht, h⟩ := h₂ w hw
    exact ⟨e, b, r, _, h s rfl, .inr ⟨w, tile, rfl, ht, rfl⟩⟩

/-- Whether command `i` has a window that holds address `a`. -/
def InCommandWindow (p : Params) (i : Instr) (a : Nat) : Prop :=
  ∃ w, commandWindow p i = some w ∧ w.contains a = true

/-- The memory a command leaves, in terms of its bytes: the canonical form is kept, a listed byte was listed or lies in
the command's window, and every byte outside the window reads as before. -/
theorem exec_memory (i : Instr) (s : State) :
    ∃ e b r m, exec i s = .next ((s.setMem m).complete e b r) ∧ (Memory.wf s.mem → Memory.wf m) ∧
      (∀ c ∈ m, InCommandWindow s.params i c.1 ∨ c ∈ s.mem) ∧
      (∀ a, ¬ InCommandWindow s.params i a → Memory.read m a = Memory.read s.mem a) := by
  obtain ⟨e, b, r, m, h, ⟨-, hm⟩ | ⟨w, tile, hw, -, hm⟩⟩ := exec_cases i s
  · refine ⟨e, b, r, m, h, ?_, ?_, ?_⟩
    · rw [hm]
      exact id
    · rw [hm]
      exact fun c hc => .inr hc
    · rw [hm]
      exact fun _ _ => rfl
  · refine ⟨e, b, r, m, h, ?_, ?_, ?_⟩
    · rw [hm]
      exact fun h => wf_tileWrite h _ _ _
    · rw [hm]
      exact fun c hc => (mem_tileWrite hc).imp (fun hc => ⟨w, hw, hc⟩) id
    · rw [hm]
      refine fun a ha => read_tileWrite_of_outside (dst := w.dst) (stride := w.stride) tile s.mem ?_
      exact eq_false_of_ne_true fun hc => ha ⟨w, hw, hc⟩

/-- Performing a command does not look at what the command in flight, the rivals or the events to come are. -/
theorem exec_of_same_base (i : Instr) (s s' : State) (hp : s'.params = s.params) (hm : s'.mem = s.mem) :
    ∃ e b r m, exec i s = .next ((s.setMem m).complete e b r) ∧ exec i s' = .next ((s'.setMem m).complete e b r) := by
  obtain ⟨e, b, r, h₁, h₂⟩ := exec_spec s.params i
  cases hw : commandWindow s.params i with
  | none => exact ⟨e, b, r, s.mem, by simpa using h₁ s rfl hw, by rw [h₁ s' hp hw, ← hm, State.setMem_self]⟩
  | some w =>
    obtain ⟨tile, -, h⟩ := h₂ w hw
    exact ⟨e, b, r, _, h s rfl, by rw [h s' hp, hm]⟩

end Machine
end Sys2Proof
end

