-- ==== Sys2Proof/Laws/PerInstr.lean ====
section
/-! SUPPORT. The facts stated once per command: row `op` of the opcode map is the command's own row (spec 30_encoding.md R62). -/

namespace Sys2Proof
namespace Laws

/-- The row of the opcode map that `i`'s own `op` selects, given `i`'s own operands, is `i` (R62). -/
def RowOfOp.Statement (i : Instr) : Prop := opcodeMap.get i.op.toFin i.blk i.dst i.stride = i

theorem RowOfOp.decBc1 (blk : Block) (dst stride : Nat) : RowOfOp.Statement (.decBc1 blk dst stride) := rfl
theorem RowOfOp.decBc1a (blk : Block) (dst stride : Nat) : RowOfOp.Statement (.decBc1a blk dst stride) := rfl
theorem RowOfOp.reserved2 (blk : Block) (dst stride : Nat) : RowOfOp.Statement (.reserved2 blk dst stride) := rfl
theorem RowOfOp.decBc3 (blk : Block) (dst stride : Nat) : RowOfOp.Statement (.decBc3 blk dst stride) := rfl
theorem RowOfOp.expand565 (blk : Block) (dst stride : Nat) : RowOfOp.Statement (.expand565 blk dst stride) := rfl
theorem RowOfOp.cpalBc1 (blk : Block) (dst stride : Nat) : RowOfOp.Statement (.cpalBc1 blk dst stride) := rfl
theorem RowOfOp.cpalBc1a (blk : Block) (dst stride : Nat) : RowOfOp.Statement (.cpalBc1a blk dst stride) := rfl
theorem RowOfOp.cpal4c (blk : Block) (dst stride : Nat) : RowOfOp.Statement (.cpal4c blk dst stride) := rfl
theorem RowOfOp.apal (blk : Block) (dst stride : Nat) : RowOfOp.Statement (.apal blk dst stride) := rfl
theorem RowOfOp.reserved9 (blk : Block) (dst stride : Nat) : RowOfOp.Statement (.reserved9 blk dst stride) := rfl
theorem RowOfOp.reservedA (blk : Block) (dst stride : Nat) : RowOfOp.Statement (.reservedA blk dst stride) := rfl
theorem RowOfOp.reservedB (blk : Block) (dst stride : Nat) : RowOfOp.Statement (.reservedB blk dst stride) := rfl
theorem RowOfOp.reservedC (blk : Block) (dst stride : Nat) : RowOfOp.Statement (.reservedC blk dst stride) := rfl
theorem RowOfOp.reservedD (blk : Block) (dst stride : Nat) : RowOfOp.Statement (.reservedD blk dst stride) := rfl
theorem RowOfOp.reservedE (blk : Block) (dst stride : Nat) : RowOfOp.Statement (.reservedE blk dst stride) := rfl
theorem RowOfOp.reservedF (blk : Block) (dst stride : Nat) : RowOfOp.Statement (.reservedF blk dst stride) := rfl

end Laws
end Sys2Proof
end

