-- ==== Sys2Proof/Laws/Run.lean ====
section
/-! SUPPORT. Steps and runs: what the head of the host's events does, one step at a time. -/

namespace Sys2Proof
namespace Machine

/-- A step performs the head of the host's events, the rest being still to come. -/
theorem step_of_inputs {s : State} {e : HostEvent} {rest : List HostEvent} (h : s.inputs = e :: rest) :
    step s = hostEvent e (s.setInputs rest) := by
  unfold step
  rw [h]

/-- With no event to come nothing happens (10_state.md R32; log 2). -/
theorem step_of_no_inputs {s : State} (h : s.inputs = []) : step s = .next s := by
  unfold step
  rw [h]

/-- The run of any machine whose first step answers a next state goes on from it. -/
theorem coreRun_next {M : Host.Core} {k : Nat} {s t : M.State} (h : M.step s = .next t) : M.run (k + 1) s = M.run k t := by
  simp only [Host.Core.run, h]

/-- The run of any machine stops where a step is refused. -/
theorem coreRun_refused {M : Host.Core} {k : Nat} {s : M.State} {r : M.Refusal} (h : M.step s = .refused r) :
    M.run (k + 1) s = .refused r := by
  simp only [Host.Core.run, h]

theorem run_zero (s : State) : Host.Core.run core 0 s = .next s := rfl

/-- A run whose first step answers a next state goes on from it. -/
theorem run_succ_of_next {k : Nat} {s t : State} (h : step s = .next t) :
    Host.Core.run core (k + 1) s = Host.Core.run core k t :=
  coreRun_next (M := core) h

theorem run_succ_of_refused {k : Nat} {s : State} {r : Refusal} (h : step s = .refused r) :
    Host.Core.run core (k + 1) s = .refused r :=
  coreRun_refused (M := core) h

/-- A command answers a next state that keeps all but `M`, `STATUS` and `RES`, and leaves the unit idle. -/
theorem exec_next (i : Instr) (s : State) :
    ∃ t, exec i s = .next t ∧ t.inFlight = none ∧ t.rivals = [] ∧ SameSystem s t := by
  obtain ⟨e, b, r, m, h, -⟩ := exec_cases i s
  exact ⟨_, h, rfl, rfl, rfl, rfl, rfl, rfl, rfl⟩

section Settle
variable (t s : State) (i : Instr)

/-- Settling a race changes only `M` and the draw counter. -/
theorem State.settle_cases :
    (sharedBytes s i = [] ∧ t.settle i s = t) ∨
      t.settle i s = { t with mem := keepBytes s.mem (keptBytes s i) t.mem, draws := s.draws + 1 } := by
  unfold State.settle
  split
  · exact .inl ⟨by assumption, rfl⟩
  · exact .inr rfl

@[simp] theorem State.settle_params : (t.settle i s).params = t.params := by
  obtain ⟨-, h⟩ | h := t.settle_cases s i <;> rw [h]
@[simp] theorem State.settle_status : (t.settle i s).status = t.status := by
  obtain ⟨-, h⟩ | h := t.settle_cases s i <;> rw [h]
@[simp] theorem State.settle_res : (t.settle i s).res = t.res := by
  obtain ⟨-, h⟩ | h := t.settle_cases s i <;> rw [h]
@[simp] theorem State.settle_inFlight : (t.settle i s).inFlight = t.inFlight := by
  obtain ⟨-, h⟩ | h := t.settle_cases s i <;> rw [h]
@[simp] theorem State.settle_rivals : (t.settle i s).rivals = t.rivals := by
  obtain ⟨-, h⟩ | h := t.settle_cases s i <;> rw [h]
@[simp] theorem State.settle_others : (t.settle i s).others = t.others := by
  obtain ⟨-, h⟩ | h := t.settle_cases s i <;> rw [h]
@[simp] theorem State.settle_inputs : (t.settle i s).inputs = t.inputs := by
  obtain ⟨-, h⟩ | h := t.settle_cases s i <;> rw [h]
@[simp] theorem State.settle_bus : (t.settle i s).bus = t.bus := by
  obtain ⟨-, h⟩ | h := t.settle_cases s i <;> rw [h]
@[simp] theorem State.settle_busy : (t.settle i s).busy = t.busy := by simp [State.busy]
end Settle

/-- The bytes of a command's window. -/
theorem mem_windowBytes {p : Params} {i : Instr} {a : Nat} : a ∈ windowBytes p i ↔ InCommandWindow p i a := by
  unfold windowBytes InCommandWindow
  cases commandWindow p i with
  | none => simp
  | some w => simp [Window.mem_addresses]

/-- The bytes a race can settle are window bytes of the command that a rival wrote (60_exceptions.md R162). -/
theorem mem_sharedBytes {s : State} {i : Instr} {a : Nat} :
    a ∈ sharedBytes s i ↔ InCommandWindow s.params i a ∧ a ∈ s.rivals := by
  simp [sharedBytes, mem_windowBytes]

/-- A kept byte is shared and held a value. -/
theorem mem_keptBytes {s : State} {i : Instr} {a : Nat} :
    a ∈ keptBytes s i ↔ (InCommandWindow s.params i a ∧ a ∈ s.rivals) ∧ Config.raceKeeps s.draws a = true ∧
      (Memory.read s.mem a).isSome = true := by
  simp [keptBytes, mem_sharedBytes]

/-- A landed byte is a window byte that is not kept. -/
theorem mem_landedBytes {s : State} {i : Instr} {a : Nat} :
    a ∈ landedBytes s i ↔ InCommandWindow s.params i a ∧ a ∉ keptBytes s i := by
  simp [landedBytes, mem_windowBytes]

/-- With no rival no byte is shared. -/
theorem sharedBytes_of_no_rivals {s : State} (i : Instr) (h : s.rivals = []) : sharedBytes s i = [] := by
  simp [sharedBytes, h]

/-- With no rival there is no race. -/
theorem State.settle_of_no_rivals (t s : State) (i : Instr) (h : s.rivals = []) : t.settle i s = t :=
  if_pos (sharedBytes_of_no_rivals i h)

/-- With no rival the whole window lands. -/
theorem landedBytes_of_no_rivals {s : State} (i : Instr) (h : s.rivals = []) :
    landedBytes s i = windowBytes s.params i := by
  simp [landedBytes, keptBytes, sharedBytes_of_no_rivals i h]

@[simp] theorem keepBytes_nil (before m : Memory) : keepBytes before [] m = m := rfl

@[simp] theorem keepBytes_cons (before m : Memory) (b : Nat) (l : List Nat) :
    keepBytes before (b :: l) m = keepBytes before l (keepByte before m b) := rfl

/-- Keeping one byte: it held no value and nothing is written, or its value is written. -/
theorem keepByte_cases (before m : Memory) (b : Nat) :
    (Memory.read before b = none ∧ keepByte before m b = m) ∨
      ∃ v, Memory.read before b = some v ∧ keepByte before m b = Memory.write m b v := by
  unfold keepByte
  split
  · exact .inr ⟨_, by assumption, rfl⟩
  · exact .inl ⟨by assumption, rfl⟩

/-- A byte that is not listed is untouched; a listed one that held a value holds it again. -/
theorem read_keepBytes (before m : Memory) (l : List Nat) (a : Nat) :
    Memory.read (keepBytes before l m) a =
      if a ∈ l ∧ (Memory.read before a).isSome = true then Memory.read before a else Memory.read m a := by
  induction l generalizing m with
  | nil => simp
  | cons b l ih =>
    rw [keepBytes_cons, ih]
    by_cases hab : a = b
    · subst hab
      rcases keepByte_cases before m a with ⟨h, e⟩ | ⟨v, h, e⟩ <;> rw [e] <;> simp [h]
    · rcases keepByte_cases before m b with ⟨-, e⟩ | ⟨v, -, e⟩ <;> rw [e] <;> simp [hab, Memory.read_write_of_ne]

/-- What the settled memory reads as: a kept byte as before the completion, every other byte as the completion left it. -/
theorem State.read_settle (t s : State) (i : Instr) (a : Nat) :
    Memory.read (t.settle i s).mem a = if a ∈ keptBytes s i then Memory.read s.mem a else Memory.read t.mem a := by
  obtain ⟨h, e⟩ | e := t.settle_cases s i
  · rw [e, if_neg (by simp [keptBytes, h])]
  · rw [e]
    simp only [read_keepBytes]
    by_cases hk : a ∈ keptBytes s i
    · rw [if_pos hk, if_pos ⟨hk, (mem_keptBytes.mp hk).2.2⟩]
    · rw [if_neg hk, if_neg fun h => hk h.1]

theorem wf_keepBytes (before : Memory) {m : Memory} (h : Memory.wf m) (l : List Nat) :
    Memory.wf (keepBytes before l m) := by
  induction l generalizing m with
  | nil => exact h
  | cons b l ih =>
    refine ih ?_
    rcases keepByte_cases before m b with ⟨-, e⟩ | ⟨v, -, e⟩
    · rwa [e]
    · rw [e]
      exact Memory.wf_write h _ _

/-- A cell of a settled memory was there, or is a kept byte. -/
theorem mem_keepBytes {before m : Memory} {l : List Nat} {c : Host.Cell}
    (h : c ∈ keepBytes before l m) : c.1 ∈ l ∨ c ∈ m := by
  induction l generalizing m with
  | nil => exact .inr h
  | cons b l ih =>
    rcases ih h with h | h
    · exact .inl (List.mem_cons_of_mem _ h)
    · rcases keepByte_cases before m b with ⟨-, e⟩ | ⟨v, -, e⟩
      · exact .inr (e ▸ h)
      · rw [e] at h
        rcases Memory.mem_write h with rfl | h
        · exact .inl (by simp)
        · exact .inr h

/-- The step that accepts a command (70_reset_and_hazards.md R173). -/
theorem step_present {s : State} {cmd : Nat} {rest : List HostEvent} {i : Instr} (h : s.inputs = .present cmd :: rest)
    (hb : s.busy = 0) (hi : decode s.params cmd = .ok i) : step s = .next ((s.setInputs rest).accept i) := by
  rw [step_of_inputs h]
  simp only [hostEvent, hostPresent]
  rw [if_neg (by rw [State.setInputs_busy, hb]; decide), State.setInputs_params, hi]

/-- The step that turns to another unit (60_exceptions.md R162). -/
theorem step_select {s : State} {k : Nat} {rest : List HostEvent} {u : UnitRegs} (h : s.inputs = .select k :: rest)
    (hu : s.others[k]? = some u) : step s = .next ((s.setInputs rest).swap k u) := by
  rw [step_of_inputs h]
  simp only [hostEvent, hostSelect]
  rw [State.setInputs_others, hu]

/-- The step that completes the command in flight: it performs it, settles the bytes other units wrote meanwhile, and
tells the units in flight (70_reset_and_hazards.md R173, 60_exceptions.md R162). -/
theorem step_await {s : State} {rest : List HostEvent} {i : Instr} (h : s.inputs = .await :: rest)
    (hi : s.inFlight = some i) :
    ∃ t, exec i (s.setInputs rest) = .next t ∧ step s = .next ((t.settle i (s.setInputs rest)).announce (landedBytes (s.setInputs rest) i)) := by
  obtain ⟨t, ht, -⟩ := exec_next i (s.setInputs rest)
  refine ⟨t, ht, ?_⟩
  rw [step_of_inputs h]
  simp only [hostEvent, hostAwait, State.setInputs_inFlight, hi, ht]

@[simp] theorem spoilBytes_nil (draw : Nat) (m : Memory) : spoilBytes draw [] m = m := rfl

@[simp] theorem spoilBytes_cons (draw : Nat) (m : Memory) (b : Nat) (l : List Nat) :
    spoilBytes draw (b :: l) m = spoilBytes draw l (Memory.write m b (Config.resetByte draw b)) := rfl

/-- The memory after a reset that abandoned a decode: free values in the window, the rest untouched
(70_reset_and_hazards.md R170). -/
theorem read_spoilBytes (draw : Nat) (m : Memory) (l : List Nat) (a : Nat) :
    Memory.read (spoilBytes draw l m) a = if a ∈ l then some (Config.resetByte draw a) else Memory.read m a := by
  induction l generalizing m with
  | nil => simp
  | cons b l ih =>
    rw [spoilBytes_cons, ih]
    by_cases hl : a ∈ l
    · simp [hl]
    · by_cases hab : a = b
      · subst hab
        simp [hl]
      · simp [hl, hab, Memory.read_write_of_ne]

theorem wf_spoilBytes (draw : Nat) {m : Memory} (h : Memory.wf m) (l : List Nat) :
    Memory.wf (spoilBytes draw l m) := by
  induction l generalizing m with
  | nil => exact h
  | cons b l ih => exact ih (Memory.wf_write h _ _)

theorem mem_spoilBytes {draw : Nat} {m : Memory} {l : List Nat} {c : Host.Cell}
    (h : c ∈ spoilBytes draw l m) : c.1 ∈ l ∨ c ∈ m := by
  induction l generalizing m with
  | nil => exact .inr h
  | cons b l ih =>
    rcases ih h with h | h
    · exact .inl (List.mem_cons_of_mem _ h)
    · exact (Memory.mem_write h).imp (fun e => by simp [e]) id

end Machine
end Sys2Proof
end

