-- ==== Sys2Proof/Tests/Slice0.lean ====
section
/-! SUPPORT. Tests of the model against the spec's encodings (30_encoding.md R60, R62) and vectors (95_test_vectors.md),
and, for every statement with hypotheses, a witness that meets them. -/

namespace Sys2Proof
namespace Tests

open Machine

/- The tests are elaborated one after another: side by side they reserve more thread stacks than the check allows. -/
set_option Elab.async false

/-- What `f` reads of the next state, where there is one. -/
def after {α : Type} (o : Host.Outcome State Fault Refusal) (f : State → α) : Option α :=
  match o with
  | .next t => some (f t)
  | .fault _ => none
  | .refused _ => none

/-- `STATUS` and `RES`. -/
def regs (s : State) : BitVec 8 × BitVec 128 := (s.status, s.res)

/-- The four bytes at `p`. -/
def bytes4 (p : Nat) (s : State) : List (Option Byte) := (List.range 4).map fun k => Memory.read s.mem (p + k)

/-- One unit, idle, with these host events to come. -/
def idle (l : List HostEvent) : State := State.reset.setInputs l

/-- A decode whose window ends at the top of `M` (95_test_vectors.md 2.8). -/
def topBlock : Instr := .decBc3 0 0xFFC0 16

/-- One unit, that decode in flight, with these host events to come. -/
def busyTop (l : List HostEvent) : State := (idle l).accept topBlock

/-- Two units, idle. -/
def pair (l : List HostEvent) : State := (State.resetWith Params.vectors 1).setInputs l

/-- Two units, the one addressed idle, the other with the decode of `topBlock` in flight. -/
def otherBusy (l : List HostEvent) : State :=
  { pair l with others := [⟨0, 0, some topBlock, []⟩] }

/-! ## Well-formedness: one ill-formed term for each check -/

theorem test_dst_too_wide_refused : ¬ Instr.WellFormed Params.vectors (.decBc1 0 0x10000 16) := by decide
theorem test_stride_too_wide_refused : ¬ Instr.WellFormed Params.vectors (.apal 0 0 0x10000) := by decide
theorem test_widest_fields_accepted : Instr.WellFormed Params.vectors (.reservedF 0 0xFFFF 0xFFFF) := by decide
theorem test_aw_out_of_range_refused : ¬ Params.Legal ⟨7, 16⟩ ∧ ¬ Params.Legal ⟨65, 16⟩ := by decide
theorem test_sw_out_of_range_refused : ¬ Params.Legal ⟨16, 4⟩ ∧ ¬ Params.Legal ⟨16, 65⟩ := by decide
theorem test_memory_wf_refuses : ¬ Memory.wf [(1, 0), (1, 0)] ∧ ¬ Memory.wf [(2, 0), (1, 0)] ∧ Memory.wf State.reset.mem := by
  decide

/-! ## Decoding: words laid out from R60, stride, dst, blk, op from the most significant digit -/

theorem test_decode_dec_bc1 : decode Params.vectors 0x00201234FEDCBA98765432100123456789ABCDEF0 =
    .ok (.decBc1 0xFEDCBA98765432100123456789ABCDEF#128 0x1234 0x20) := by decide +kernel
theorem test_decode_dec_bc1a : decode Params.vectors 0x00201234FEDCBA98765432100123456789ABCDEF1 =
    .ok (.decBc1a 0xFEDCBA98765432100123456789ABCDEF#128 0x1234 0x20) := by decide +kernel
theorem test_decode_reserved2 : decode Params.vectors 0x00201234FEDCBA98765432100123456789ABCDEF2 =
    .ok (.reserved2 0xFEDCBA98765432100123456789ABCDEF#128 0x1234 0x20) := by decide +kernel
theorem test_decode_dec_bc3 : decode Params.vectors 0x00201234FEDCBA98765432100123456789ABCDEF3 =
    .ok (.decBc3 0xFEDCBA98765432100123456789ABCDEF#128 0x1234 0x20) := by decide +kernel
theorem test_decode_expand565 : decode Params.vectors 0x00201234FEDCBA98765432100123456789ABCDEF4 =
    .ok (.expand565 0xFEDCBA98765432100123456789ABCDEF#128 0x1234 0x20) := by decide +kernel
theorem test_decode_cpal_bc1 : decode Params.vectors 0x00201234FEDCBA98765432100123456789ABCDEF5 =
    .ok (.cpalBc1 0xFEDCBA98765432100123456789ABCDEF#128 0x1234 0x20) := by decide +kernel
theorem test_decode_cpal_bc1a : decode Params.vectors 0x00201234FEDCBA98765432100123456789ABCDEF6 =
    .ok (.cpalBc1a 0xFEDCBA98765432100123456789ABCDEF#128 0x1234 0x20) := by decide +kernel
theorem test_decode_cpal4c : decode Params.vectors 0x00201234FEDCBA98765432100123456789ABCDEF7 =
    .ok (.cpal4c 0xFEDCBA98765432100123456789ABCDEF#128 0x1234 0x20) := by decide +kernel
theorem test_decode_apal : decode Params.vectors 0x00201234FEDCBA98765432100123456789ABCDEF8 =
    .ok (.apal 0xFEDCBA98765432100123456789ABCDEF#128 0x1234 0x20) := by decide +kernel
theorem test_decode_reserved9 : decode Params.vectors 0x00201234FEDCBA98765432100123456789ABCDEF9 =
    .ok (.reserved9 0xFEDCBA98765432100123456789ABCDEF#128 0x1234 0x20) := by decide +kernel
theorem test_decode_reserved_a : decode Params.vectors 0x00201234FEDCBA98765432100123456789ABCDEFA =
    .ok (.reservedA 0xFEDCBA98765432100123456789ABCDEF#128 0x1234 0x20) := by decide +kernel
theorem test_decode_reserved_b : decode Params.vectors 0x00201234FEDCBA98765432100123456789ABCDEFB =
    .ok (.reservedB 0xFEDCBA98765432100123456789ABCDEF#128 0x1234 0x20) := by decide +kernel
theorem test_decode_reserved_c : decode Params.vectors 0x00201234FEDCBA98765432100123456789ABCDEFC =
    .ok (.reservedC 0xFEDCBA98765432100123456789ABCDEF#128 0x1234 0x20) := by decide +kernel
theorem test_decode_reserved_d : decode Params.vectors 0x00201234FEDCBA98765432100123456789ABCDEFD =
    .ok (.reservedD 0xFEDCBA98765432100123456789ABCDEF#128 0x1234 0x20) := by decide +kernel
theorem test_decode_reserved_e : decode Params.vectors 0x00201234FEDCBA98765432100123456789ABCDEFE =
    .ok (.reservedE 0xFEDCBA98765432100123456789ABCDEF#128 0x1234 0x20) := by decide +kernel
theorem test_decode_reserved_f : decode Params.vectors 0x00201234FEDCBA98765432100123456789ABCDEFF =
    .ok (.reservedF 0xFEDCBA98765432100123456789ABCDEF#128 0x1234 0x20) := by decide +kernel

/-- With AW = 8 and SW = 5 `dst` is `CMD[139:132]` and `stride` is `CMD[144:140]` (R60). -/
theorem test_decode_narrow : decode ⟨8, 5⟩ 0x1FA5000000000000000000000000000000001 =
    .ok (.decBc1a 0x00000000000000000000000000000000#128 0xA5 0x1F) := by decide +kernel
theorem test_too_wide : decode Params.vectors 0x100000000000000000000000000000000000000000 = .error .tooWide := by
  decide +kernel
theorem test_encode : encode Params.vectors (.decBc3 0xE4E4E4E4001FF800FAC688FAC688FF00#128 0x100 16) =
    0x00100100E4E4E4E4001FF800FAC688FAC688FF003 := by decide +kernel
theorem test_table_word : decodeTableWord 164 0x7 = some (.cpal4c 0 0 0) := by decide +kernel
theorem test_fetch_word : after (step (State.reset.withFetchWord 164 0xFFFF4)) regs = some (0, 0xFFFFFF) := by decide +kernel

/-! ## Commands: vectors of 95_test_vectors.md, sections 2.1 to 2.9 -/

theorem test_expand565_white : after (exec (.expand565 0xFFFF 0xFFFF 0) (idle [])) regs = some (0x00, 0x00FFFFFF) := by decide +kernel
theorem test_expand565_mixed : after (exec (.expand565 0x1234 0 0) (idle [])) regs = some (0x00, 0x00A54510) := by decide +kernel
theorem test_cpal_bc1_three : after (exec (.cpalBc1 0xF800001F 0 0) (idle [])) regs =
    some (0x00, 0xFF000000FF7F007FFF0000FFFFFF0000) := by decide +kernel
theorem test_cpal_bc1_near : after (exec (.cpalBc1 0x001F0020 0 0) (idle [])) regs =
    some (0x00, 0xFFAA0100FF550200FFFF0000FF000400) := by decide +kernel
theorem test_cpal_bc1a_three : after (exec (.cpalBc1a 0xF800001F 0 0) (idle [])) regs =
    some (0x00, 0x00000000FF7F007FFF0000FFFFFF0000) := by decide +kernel
theorem test_cpal_bc1a_equal : after (exec (.cpalBc1a 0x7BEF7BEF 0 0) (idle [])) regs =
    some (0x00, 0x00000000FF7B7D7BFF7B7D7BFF7B7D7B) := by decide +kernel
theorem test_cpal_4c_forced : after (exec (.cpal4c 0xF800001F 0xFFFF 3) (idle [])) regs =
    some (0x00, 0xFF5500AAFFAA0055FF0000FFFFFF0000) := by decide +kernel
theorem test_cpal_4c_low : after (exec (.cpal4c 0x00010000 0 0) (idle [])) regs =
    some (0x00, 0xFF050000FF020000FF080000FF000000) := by decide +kernel
theorem test_apal_eight : after (exec (.apal 0x00FF 0xFFFF 1) (idle [])) regs = some (0x00, 0x24486D91B6DA00FF) := by decide +kernel
theorem test_apal_six : after (exec (.apal 0xC864 0 0) (idle [])) regs = some (0x00, 0xFF00B4A08C78C864) := by decide +kernel

/-- Block [12 34 56 78 9A BC DE F0]: pixel (1,1) is the black entry, opaque in the strict variant. -/
theorem test_dec_bc1_tile : after (exec (.decBc1 0xF0DEBC9A78563412 0 16) (idle []))
    (fun t => (regs t, bytes4 0 t, bytes4 20 t, bytes4 48 t)) =
    some ((0x04, 0), [some 86, some 69, some 164, some 255], [some 0, some 0, some 0, some 255],
      [some 49, some 130, some 148, some 255]) := by decide +kernel
theorem test_dec_bc1_range : after (exec (.decBc1 0 0xFF01 80) (idle [])) (fun t => (regs t, t.mem)) = some ((0x03, 0), []) := by decide +kernel
/-- The same block: pixel (1,1) is transparent. -/
theorem test_dec_bc1a_tile : after (exec (.decBc1a 0xF0DEBC9A78563412 0 16) (idle []))
    (fun t => (regs t, bytes4 8 t, bytes4 20 t)) =
    some ((0x04, 0), [some 123, some 8, some 181, some 255], [some 0, some 0, some 0, some 0]) := by decide +kernel
/-- The window of 95_test_vectors.md 2.9: bytes 5..20, 29..44, 53..68, 77..92. -/
theorem test_dec_bc1a_window : after (exec (.decBc1a 0xFFFF 5 24) (idle [])) (fun t => t.mem.map (·.1)) =
    some (List.range' 5 16 ++ List.range' 29 16 ++ List.range' 53 16 ++ List.range' 77 16) := by decide +kernel
/-- Block [10 20 C0 01 00 00 00 E0 1F 00 00 F8 E4 E4 E4 E4]: pixels (0,0), (2,0) and (3,3). -/
theorem test_dec_bc3_tile : after (exec (.decBc3 0xE4E4E4E4F800001FE000000001C02010 0 16) (idle []))
    (fun t => (regs t, bytes4 0 t, bytes4 8 t, bytes4 60 t)) =
    some ((0x00, 0), [some 0, some 0, some 255, some 16], [some 85, some 0, some 170, some 255],
      [some 170, some 0, some 85, some 255]) := by decide +kernel
theorem test_dec_bc3_stride_before_range : after (exec (.decBc3 0 0xFFFF 15) (idle [])) (fun t => (regs t, t.mem)) = some ((0x02, 0), []) := by decide +kernel
theorem test_reserved_2 : after (exec (.reserved2 0xFF 0xFFFF 0) (idle [])) (fun t => (regs t, t.mem)) = some ((0x01, 0), []) := by decide +kernel
theorem test_reserved_9 : after (exec (.reserved9 0xFF 0xFFFF 0) (idle [])) (fun t => (regs t, t.mem)) = some ((0x01, 0), []) := by decide +kernel
theorem test_reserved_a : after (exec (.reservedA 0xFF 0xFFFF 0) (idle [])) (fun t => (regs t, t.mem)) = some ((0x01, 0), []) := by decide +kernel
theorem test_reserved_b : after (exec (.reservedB 0xFF 0xFFFF 0) (idle [])) (fun t => (regs t, t.mem)) = some ((0x01, 0), []) := by decide +kernel
theorem test_reserved_c : after (exec (.reservedC 0xFF 0xFFFF 0) (idle [])) (fun t => (regs t, t.mem)) = some ((0x01, 0), []) := by decide +kernel
theorem test_reserved_d : after (exec (.reservedD 0xFF 0xFFFF 0) (idle [])) (fun t => (regs t, t.mem)) = some ((0x01, 0), []) := by decide +kernel
theorem test_reserved_e : after (exec (.reservedE 0xFF 0xFFFF 0) (idle [])) (fun t => (regs t, t.mem)) = some ((0x01, 0), []) := by decide +kernel
theorem test_reserved_f : after (exec (.reservedF 0xFF 0xFFFF 0) (idle [])) (fun t => (regs t, t.mem)) = some ((0x01, 0), []) := by decide +kernel

/-! ## The assembler: lines of 95_test_vectors.md, section 3 -/

theorem test_asm_dec_dxt1 : assembleText Params.vectors "DEC_DXT1 0x0010, 32, [1F 00 00 F8 E4 E4 E4 E4] ; block (1,0)" =
    some 0x002000100000000000000000E4E4E4E4F800001F1 := by decide +kernel
theorem test_asm_cpal_4c : assembleText Params.vectors "CPAL_4C #0x001F, #0xF800" = some 0x00000000000000000000000000000000F800001F7 := by decide +kernel
theorem test_asm_rawcmd : assembleText Params.vectors "RAWCMD 0x9, 0, 16, []" = some 0x00100000000000000000000000000000000000009 := by decide +kernel
theorem test_asm_refuses : assembleText Params.vectors "APAL #256, #0" = none ∧ assembleText Params.vectors "DEC_BC1 0x10000, 16, []" = none ∧
    assembleText Params.vectors "RAWCMD 16, 0, 0, []" = none := by decide +kernel

/-! ## The host side -/

/-- A decode in flight, abandoned by reset: 64 bytes hold some value, the registers are 0 (70_reset_and_hazards.md R170). -/
theorem test_reset_in_flight : after (step (busyTop [.reset])) (fun t => (regs t, t.busy, t.mem.length)) =
    some ((0, 0), 0, 64) := by rfl
theorem test_await_completes : after (step (busyTop [.await])) (fun t => (regs t, t.busy, t.mem.length)) =
    some ((0, 0), 0, 64) := by decide +kernel
theorem test_host_reads_status : after (step ({ idle [.readReg .status] with status := 0x04 })) State.bus = some 4 := by
  decide +kernel

/-! ## Witnesses: the hypotheses of each statement can be met together -/

theorem witness_ResetEffect_no_window :
    let s := (idle []).accept (.apal 0 0 0)
    ∀ i, s.inFlight = some i → i.isDecode = false := by
  intro s i h
  cases h
  rfl
theorem witness_ResetEffect_window :
    (busyTop []).inFlight = some topBlock ∧ commandWindow (busyTop []).params topBlock = some ⟨0xFFC0, 16⟩ ∧
    Window.contains ⟨0xFFC0, 16⟩ 0xFFC0 = true ∧ Window.contains ⟨0xFFC0, 16⟩ 0xFFFF = true ∧
    Window.contains ⟨0xFFC0, 16⟩ 0xFFBF = false := by decide +kernel
theorem witness_AcceptsCommandAfterReset :
    (∃ t, hostReset (busyTop []) = .next t) ∧ 2 ^ 164 - 1 < 2 ^ (busyTop []).params.cmdBits := ⟨⟨_, rfl⟩, by decide +kernel⟩
theorem witness_ResetStateRegisters : UnitRegs.reset ∈ (State.resetWith ⟨8, 5⟩ 1).others := by decide
theorem witness_InvariantHoldsAfterReset : Params.Legal ⟨8, 5⟩ ∧ Params.Legal ⟨64, 64⟩ := by decide
theorem witness_StepKeepsInvariant : Inv (otherBusy [.select 0]) ∧ ∃ t, step (otherBusy [.select 0]) = .next t := by
  refine ⟨⟨by decide, by decide, (by intro c hc; cases hc), by decide, ?_, ?_⟩, _, rfl⟩
  · intro i h
    cases h
  · intro u hu
    obtain rfl := List.mem_singleton.mp hu
    refine ⟨by decide, fun i h => ?_⟩
    cases h
    decide
theorem witness_StepKeepsConfiguration : ∃ t, step (busyTop [.await]) = .next t := ⟨_, rfl⟩
theorem witness_DecodeOfEncode :
    Instr.WellFormed Params.vectors (.decBc3 (-1) 0xFFFF 0xFFFF) ∧ Instr.WellFormed ⟨8, 5⟩ (.cpal4c 0 0xFF 31) := by decide
theorem witness_EncodeOfDecode : decode Params.vectors (2 ^ 164 - 1) = .ok (.reservedF (-1) 0xFFFF 0xFFFF) := by
  decide +kernel
theorem witness_CommandFields : Instr.WellFormed Params.vectors (.apal (-1) 0xFFFF 0) := by decide
theorem witness_DecoderIsTotal :
    2 ^ 164 - 1 < 2 ^ Params.vectors.cmdBits ∧ (∃ t, exec (.reserved2 0 0 0) State.reset = .next t) ∧
    ∃ t, exec (.apal 0 0 0) State.reset = .next t := ⟨by decide +kernel, ⟨_, rfl⟩, ⟨_, rfl⟩⟩
theorem witness_TooWideIsRejected : 2 ^ (132 + Params.vectors.aw + Params.vectors.sw) ≤ 2 ^ 164 := by decide +kernel
theorem witness_StepRunsDecodedCommand :
    let s := otherBusy [.command (encode Params.vectors topBlock)]
    s.inputs = .command (encode Params.vectors topBlock) :: [] ∧ s.busy = 0 ∧
    decode s.params (encode Params.vectors topBlock) = .ok topBlock ∧ ∃ t, exec topBlock (s.setInputs []) = .next t :=
  ⟨rfl, by decide, by decide +kernel, _, rfl⟩
theorem witness_StepRunsDecodedCommand_alone :
    let s := pair [.command 4]
    s.busy = 0 ∧ decode s.params 4 = .ok (.expand565 0 0 0) ∧ ∀ u ∈ s.others, u.inFlight = none := by
  refine ⟨by decide, by decide +kernel, fun u hu => ?_⟩
  obtain rfl := List.mem_singleton.mp hu
  rfl
theorem witness_DutifulHostNeverStops :
    KeepsDuty (pair []) (.command (2 ^ 164 - 1)) ∧ KeepsDuty (pair []) (.present (2 ^ 164 - 1)) ∧
    KeepsDuty (busyTop []) .await ∧ KeepsDuty (busyTop []) (.readM 0xFFBF) ∧ KeepsDuty (busyTop []) (.writeM 0 1) ∧
    KeepsDuty (busyTop []) (.readReg .busy) ∧ KeepsDuty (busyTop []) (.writeReg .res 0) ∧ KeepsDuty (busyTop []) .reset ∧
    KeepsDuty (pair []) (.select 0) := by
  refine ⟨⟨?_, ?_⟩, ⟨?_, ?_⟩, trivial, ⟨?_, ?_⟩, ⟨?_, ?_⟩, trivial, trivial, trivial, by exact Nat.one_pos⟩ <;> decide +kernel
theorem witness_BusyFollowsHandshake :
    (∃ t, step (idle [.present 4]) = .next t) ∧ (∃ t, step (idle [.command 4]) = .next t) ∧
    (∃ t, step (busyTop [.await]) = .next t) ∧ (∃ t, step (busyTop [.reset]) = .next t) ∧
    (∃ t, step (busyTop [.readM 0]) = .next t) ∧ (∃ t, step (busyTop [.writeM 0 1]) = .next t) ∧
    (∃ t, step (busyTop [.readReg .res]) = .next t) ∧ (∃ t, step (busyTop [.writeReg .res 1]) = .next t) :=
  ⟨⟨_, rfl⟩, ⟨_, rfl⟩, ⟨_, rfl⟩, ⟨_, rfl⟩, ⟨_, rfl⟩, ⟨_, rfl⟩, ⟨_, rfl⟩, ⟨_, rfl⟩⟩
theorem witness_BusyFollowsHandshake_transactions :
    (∀ e ∈ (idle [.command 4, .reset]).inputs, TransactionLevel e) ∧ (idle [.command 4, .reset]).busy = 0 ∧
    ∃ t, step (idle [.command 4, .reset]) = .next t := by
  refine ⟨fun e he => ?_, by decide, _, rfl⟩
  obtain rfl | rfl : e = .command 4 ∨ e = .reset := by simpa [idle, State.setInputs] using he
  · trivial
  · trivial
theorem witness_CommandWhileBusyRefused : (busyTop []).busy = 1 := by decide
theorem witness_WindowAccessWhileBusy_inside :
    0xFFFF < (otherBusy []).params.memSize ∧ (∃ u ∈ (otherBusy []).others, u.inFlight = some topBlock) ∧
    commandWindow (otherBusy []).params topBlock = some ⟨0xFFC0, 16⟩ ∧ Window.contains ⟨0xFFC0, 16⟩ 0xFFFF = true :=
  ⟨by decide +kernel, ⟨_, List.mem_singleton.mpr rfl, rfl⟩, by decide +kernel, by decide +kernel⟩
theorem witness_WindowAccessWhileBusy_own :
    0xFFC0 < (busyTop []).params.memSize ∧ (busyTop []).inFlight = some topBlock ∧
    commandWindow (busyTop []).params topBlock = some ⟨0xFFC0, 16⟩ ∧ Window.contains ⟨0xFFC0, 16⟩ 0xFFC0 = true := by
  decide +kernel
theorem witness_WindowAccessWhileBusy_outside :
    0xFFBF < (busyTop []).params.memSize ∧
    ∀ i w, ((busyTop []).inFlight = some i ∨ ∃ u ∈ (busyTop []).others, u.inFlight = some i) →
      commandWindow (busyTop []).params i = some w → w.contains 0xFFBF = false := by
  refine ⟨by decide +kernel, fun i w hi hw => ?_⟩
  obtain hi | ⟨u, hu, -⟩ := hi
  · cases hi
    rw [show commandWindow (busyTop []).params topBlock = some ⟨0xFFC0, 16⟩ from by decide +kernel] at hw
    cases hw
    decide +kernel
  · cases hu
theorem witness_HostReadsItsLastWrite :
    (0xFFFF < State.reset.params.memSize ∧ inWindowInFlight State.reset 0xFFFF = false) ∧
    (0xFFBF < (busyTop []).params.memSize ∧ inWindowInFlight (busyTop []) 0xFFBF = false) ∧
    State.reset.params.memSize ≤ 0x10000 := by decide +kernel
theorem witness_OnlyWritersChangeMemory_host :
    ∃ t, step (idle [.writeM 0 1]) = .next t ∧ Memory.read t.mem 0 ≠ Memory.read (idle [.writeM 0 1]).mem 0 :=
  ⟨_, rfl, by decide +kernel⟩
theorem witness_OnlyWritersChangeMemory_command :
    ∃ t, step (idle [.command (encode Params.vectors topBlock)]) = .next t ∧ Memory.read t.mem 0xFFFF ≠ none :=
  ⟨_, rfl, by decide +kernel⟩
theorem witness_OnlyWritersChangeMemory_await :
    ∃ t, step (busyTop [.await]) = .next t ∧ Memory.read t.mem 0xFFC0 ≠ none := ⟨_, rfl, by decide +kernel⟩
theorem witness_OnlyWritersChangeMemory_reset :
    ∃ t, step (busyTop [.reset]) = .next t ∧ (Memory.read t.mem 0xFFC0).isSome = true := ⟨_, rfl, rfl⟩
theorem witness_ExpandLaws : (30 : BitVec 5) < 31 ∧ (62 : BitVec 6) < 63 ∧ expand565 0xFFFF = expand565 0xFFFF := by decide
theorem witness_ColourPaletteEntries :
    (0x0020#16).toNat > (0x001F#16).toNat ∧ PaletteMode.bc1 ≠ .four ∧ PaletteMode.bc1a ≠ .four ∧
    (0x7BEF#16).toNat ≤ (0x7BEF#16).toNat := by decide
theorem witness_ColourPaletteLaws :
    (2 : Fin 4).val = 2 ∧ (3 : Fin 4).val = 3 ∧ isFourColour 0x0020 0x001F .bc1 = true ∧ isFourColour 0 0xFFFF .four = true := by
  decide
theorem witness_AlphaPaletteEntries :
    (255#8).toNat > (254#8).toNat ∧ (128#8).toNat ≤ (128#8).toNat ∧ 2 ≤ (7 : Fin 8).val ∧ 2 ≤ (5 : Fin 8).val ∧
    (5 : Fin 8).val ≤ 5 := by decide
theorem witness_AlphaPaletteLaws : (128#8) ≤ 128#8 ∧ (254#8) < 255#8 := by decide
theorem witness_DivisionCircuits : 0 + 3 = 3 ∧ 1 + 1 = 2 ∧ 1 + 6 = 7 ∧ 4 + 1 = 5 := by decide
/-- The three cases of DecBc1Result, DecBc1aResult and DecBc3Result, at their boundaries. -/
theorem witness_DecBcResults_stride : (15 : Nat) < 16 ∧ (0 : Nat) < 16 := by decide
theorem witness_DecBcResults_range :
    (16 ≤ 16 ∧ 0xFFC1 + 3 * 16 + 15 > 2 ^ State.reset.params.aw - 1) ∧
    (16 ≤ 0xFFFF ∧ 0 + 3 * 0xFFFF + 15 > 2 ^ State.reset.params.aw - 1) := by decide +kernel
theorem witness_DecBcResults_ok :
    (16 ≤ 16 ∧ 0xFFC0 + 3 * 16 + 15 ≤ 2 ^ State.reset.params.aw - 1) ∧
    (16 ≤ 80 ∧ 0xFF00 + 3 * 80 + 15 ≤ 2 ^ State.reset.params.aw - 1) := by decide +kernel
theorem witness_Bc3ColourBesideBc1 : (0x001F#16) < 0x0020#16 := by decide
theorem witness_ReservedOpsComplete :
    (Instr.reserved2 0 0 0).op = 0x2 ∧ 0x9 ≤ (Instr.reserved9 0 0 0).op ∧ 0x9 ≤ (Instr.reservedF 0 0 0).op := by decide
theorem witness_ErrorPriority :
    (∃ t, exec (.reserved2 0 0xFFFF 0) State.reset = .next t) ∧ (∃ t, exec (.decBc1 0 0xFFFF 15) State.reset = .next t) ∧
    (∃ t, exec (.decBc3 0 0xFFC1 16) State.reset = .next t) ∧ ∃ t, exec topBlock State.reset = .next t :=
  ⟨⟨_, rfl⟩, ⟨_, rfl⟩, ⟨_, rfl⟩, ⟨_, rfl⟩⟩
theorem witness_ErrorEffect :
    (∃ t, exec (.reservedF 0 0 0) State.reset = .next t ∧ statusErr t.status ≠ 0) ∧
    (∃ t, exec (.decBc1 0 0 15) State.reset = .next t ∧ statusErr t.status ≠ 0) ∧
    ∃ t, exec (.decBc1a 0 0xFFC1 16) State.reset = .next t ∧ statusErr t.status ≠ 0 :=
  ⟨⟨_, rfl, by decide +kernel⟩, ⟨_, rfl, by decide +kernel⟩, ⟨_, rfl, by decide +kernel⟩⟩
theorem witness_StatusAndResAfterCompletion :
    (Instr.decBc1 0 0 16).op < 0x4 ∧ ∃ t, exec (.decBc1 0 0 16) State.reset = .next t ∧ statusPremul t.status = true :=
  ⟨by decide, _, rfl, by decide +kernel⟩
theorem witness_CompletionDependsOnCommandOnly :
    State.reset.params = (busyTop []).params ∧ (∃ t, exec (.apal 1 0 0) State.reset = .next t) ∧
    ∃ t, exec (.apal 1 0 0) (busyTop []) = .next t := ⟨rfl, ⟨_, rfl⟩, ⟨_, rfl⟩⟩
theorem witness_UnitNeverReadsMemory :
    (∃ t, exec topBlock State.reset = .next t) ∧ ∃ t, exec topBlock (State.reset.setMem [(0xFFC0, 7)]) = .next t :=
  ⟨⟨_, rfl⟩, ⟨_, rfl⟩⟩
theorem witness_IgnoredOperands :
    (0xFF0000000000000000#128).extractLsb' 0 64 = (0#128).extractLsb' 0 64 ∧
    (0xFF0000#128).extractLsb' 0 16 = (0#128).extractLsb' 0 16 ∧
    (0xFF00000000#128).extractLsb' 0 32 = (0#128).extractLsb' 0 32 := by decide
theorem witness_TileWriteOrderIrrelevant (tile : Tile) :
    16 ≤ 16 ∧ Memory.wf [(3, 0), (100, 1)] ∧ (tileBytes 0 16 tile).reverse.Perm (tileBytes 0 16 tile) :=
  ⟨by decide, by decide, List.reverse_perm _⟩
theorem witness_GridWindowsTileTheRaster : 1 < gridBlocks 8 ∧ 4 < gridBlocks 17 ∧ ((1, 0) : Nat × Nat) ≠ (0, 1) := by decide

/-- Two decodes side by side (95_test_vectors.md 3.1). -/
def sideBySide : List Instr := [.decBc1a 0 0 32, .decBc1a 0 16 32]
theorem witness_BlockOrderIrrelevant :
    sideBySide.Perm sideBySide.reverse ∧ State.reset.busy = 0 ∧ Memory.wf State.reset.mem ∧
    (∀ i ∈ sideBySide, i.WellFormed State.reset.params ∧ ∃ w, commandWindow State.reset.params i = some w) ∧
    sideBySide.Pairwise (fun i j => ∀ w v, commandWindow State.reset.params i = some w →
      commandWindow State.reset.params j = some v → w.Disjoint v) := by
  have h : ∀ d, d < 17 → commandWindow State.reset.params (.decBc1a 0 d 32) = some ⟨d, 32⟩ := by decide +kernel
  refine ⟨(List.reverse_perm _).symm, by decide, by decide, fun i hi => ?_, ?_⟩
  · obtain rfl | rfl : i = .decBc1a 0 0 32 ∨ i = .decBc1a 0 16 32 := by simpa [sideBySide] using hi
    · exact ⟨by decide, _, h 0 (by decide)⟩
    · exact ⟨by decide, _, h 16 (by decide)⟩
  · refine List.pairwise_pair.mpr fun w v hw hv => ?_
    rw [h 0 (by decide)] at hw
    rw [h 16 (by decide)] at hv
    cases hw
    cases hv
    rintro a ⟨h₁, h₂⟩
    simp only [Window.contains, quad, List.any_cons, List.any_nil, Bool.or_false, Bool.or_eq_true, decide_eq_true_eq,
      Fin.isValue, Fin.coe_ofNat_eq_mod] at h₁ h₂
    omega
theorem witness_UnitsRaceByteByByte :
    (pair []).busy = 0 ∧ (pair []).others[0]? = some UnitRegs.reset ∧ UnitRegs.reset.inFlight = none ∧
    topBlock.WellFormed (pair []).params ∧ Instr.WellFormed (pair []).params (.decBc1 0 0xFFB0 16) := by decide +kernel
theorem witness_CompletionKeepsOnlyRivalBytes :
    let s := { busyTop [.await] with rivals := [0xFFC0] }
    s.inputs = .await :: [] ∧ s.inFlight = some topBlock ∧ (valueWritten s.params topBlock 0xFFFF).isSome = true ∧
    0xFFFF ∉ s.rivals := by decide +kernel
/-- Three decodes that share byte 0xFFC0. -/
theorem witness_SupersededValueNeverReturns :
    (pair []).busy = 0 ∧ (pair []).others[0]? = some UnitRegs.reset ∧ UnitRegs.reset.inFlight = none ∧
    topBlock.WellFormed (pair []).params ∧ Instr.WellFormed (pair []).params (.decBc1 0 0xFFB0 16) ∧
    Instr.WellFormed (pair []).params (.decBc1a 0xFFFF 0xFF90 16) ∧
    (valueWritten (pair []).params topBlock 0xFFC0).isSome = true ∧
    (valueWritten (pair []).params (.decBc1 0 0xFFB0 16) 0xFFC0).isSome = true ∧
    (valueWritten (pair []).params (.decBc1a 0xFFFF 0xFF90 16) 0xFFC0).isSome = true := by decide +kernel
theorem witness_UnitsShareOnlyMemory :
    (∃ t, exec topBlock (otherBusy []) = .next t) ∧ (∃ t, hostCommand 8 (otherBusy []) = .next t) ∧
    0 < (otherBusy []).others.length := ⟨⟨_, rfl⟩, ⟨_, rfl⟩, by decide⟩
theorem witness_PseudoInstructionExpansions :
    0xFFFF ≤ 0xFFFF ∧ 0xFFFF < 0x10000 ∧ 0xFF ≤ 0xFF ∧ 0xFF < 0x100 ∧ Mnemonic.cpal4c = .cpal4c := by decide
theorem witness_RawcmdSpellsAnyCommand : Instr.WellFormed Params.vectors (.reserved9 (-1) 0xFFFF 0xFFFF) ∧ 0xFFFF ≤ 0xFFFF := by
  decide

end Tests
end Sys2Proof
end

section
/-! SUPPORT. What each host event does when it answers a next state (spec 10_state.md R30, 70_reset_and_hazards.md R170 to
R175): one inversion per event, which the proofs cite instead of unfolding the interface. -/

namespace Sys2Proof
namespace Machine

/-- `exec_next` for the next state at hand. -/
theorem exec_next_of_eq {i : Instr} {s t : State} (h : exec i s = .next t) :
    t.inFlight = none ∧ t.rivals = [] ∧ SameSystem s t := by
  obtain ⟨t', ht', hrest⟩ := exec_next i s
  obtain rfl : t = t' := by simpa [h] using ht'
  exact hrest

/-- A completed command leaves the unit idle (10_state.md R26). -/
theorem exec_busy {i : Instr} {s t : State} (h : exec i s = .next t) : t.busy = 0 :=
  t.busy_eq_zero.mpr (exec_next_of_eq h).1

/-- A command does not touch the host's events to come. -/
theorem exec_inputs {i : Instr} {s t : State} (h : exec i s = .next t) : t.inputs = s.inputs := by
  obtain ⟨-, -, -, -, hinputs, -⟩ := exec_next_of_eq h
  exact hinputs

/-- `BUSY` is one bit. -/
theorem State.busy_eq_zero_of_ne_one {s : State} (h : s.busy ≠ 1) : s.busy = 0 := by
  rw [s.busy_eq_zero]
  rw [Ne, s.busy_eq_one] at h
  exact Option.eq_none_iff_forall_ne_some.mpr fun i hi => h ⟨i, hi⟩

theorem hostPresent_next {cmd : Nat} {s t : State} (h : hostPresent cmd s = .next t) :
    s.busy = 0 ∧ ∃ i, decode s.params cmd = .ok i ∧ t = s.accept i := by
  unfold hostPresent at h
  split at h
  · cases h
  next hb =>
    refine ⟨State.busy_eq_zero_of_ne_one hb, ?_⟩
    split at h
    next i hi => exact ⟨i, hi, by simpa using h.symm⟩
    · cases h

theorem hostCommand_next {cmd : Nat} {s t : State} (h : hostCommand cmd s = .next t) :
    s.busy = 0 ∧ ∃ i u, decode s.params cmd = .ok i ∧ exec i s = .next u ∧ t = u.announce (windowBytes s.params i) := by
  unfold hostCommand at h
  split at h
  · cases h
  next hb =>
    refine ⟨State.busy_eq_zero_of_ne_one hb, ?_⟩
    split at h
    next i hi =>
      obtain ⟨u, hu, -⟩ := exec_next i s
      exact ⟨i, u, hi, hu, by simpa [hu] using h.symm⟩
    · cases h

theorem hostAwait_next {s t : State} (h : hostAwait s = .next t) :
    (s.inFlight = none ∧ t = s) ∨
      ∃ i u, s.inFlight = some i ∧ exec i s = .next u ∧ t = (u.settle i s).announce (landedBytes s i) := by
  unfold hostAwait at h
  split at h
  next hi => exact .inl ⟨hi, by simpa using h.symm⟩
  next i hi =>
    obtain ⟨u, hu, -⟩ := exec_next i s
    exact .inr ⟨i, u, hi, hu, by simpa [hu] using h.symm⟩

theorem hostReadM_next {a : Nat} {s t : State} (h : hostReadM a s = .next t) :
    a < s.params.memSize ∧ inWindowInFlight s a = false ∧ t = s.setBus ((hostByte s a).setWidth 128) := by
  unfold hostReadM at h
  split at h
  · cases h
  next ha =>
    split at h
    · cases h
    next hw => exact ⟨by omega, by simpa using hw, by simpa using h.symm⟩

theorem hostWriteM_next {a : Nat} {v : Byte} {s t : State} (h : hostWriteM a v s = .next t) :
    a < s.params.memSize ∧ inWindowInFlight s a = false ∧ t = s.setMem (Memory.write s.mem a v) := by
  unfold hostWriteM at h
  split at h
  · cases h
  next ha =>
    split at h
    · cases h
    next hw => exact ⟨by omega, by simpa using hw, by simpa using h.symm⟩

theorem hostReadReg_next {r : HostReg} {s t : State} (h : hostReadReg r s = .next t) : t = s.setBus (hostReg s r) := by
  simpa [hostReadReg] using h.symm

theorem hostWriteReg_next (r : HostReg) (v : BitVec 128) {s t : State} (h : hostWriteReg r v s = .next t) : t = s := by
  simpa [hostWriteReg] using h.symm

theorem hostReset_next {s t : State} (h : hostReset s = .next t) :
    (s.inFlight.bind (commandWindow s.params) = none ∧ t = s.clearRegs) ∨
      ∃ w, s.inFlight.bind (commandWindow s.params) = some w ∧ t = s.clearRegs.spoilWindow w := by
  unfold hostReset at h
  split at h
  next hw => exact .inl ⟨hw, by simpa using h.symm⟩
  next w hw => exact .inr ⟨w, hw, by simpa only [Host.Outcome.next.injEq] using h.symm⟩

theorem hostSelect_next {k : Nat} {s t : State} (h : hostSelect k s = .next t) :
    ∃ u, s.others[k]? = some u ∧ t = s.swap k u := by
  unfold hostSelect at h
  split at h
  next u hu => exact ⟨u, hu, by simpa using h.symm⟩
  · cases h

/-- No event but the step itself consumes the host's events to come (log 2). -/
theorem hostEvent_inputs {e : HostEvent} {s t : State} (h : hostEvent e s = .next t) : t.inputs = s.inputs := by
  cases e with
  | command cmd =>
    obtain ⟨-, i, u, -, hu, rfl⟩ := hostCommand_next h
    rw [State.announce_inputs, exec_inputs hu]
  | present cmd =>
    obtain ⟨-, i, -, rfl⟩ := hostPresent_next h
    rfl
  | await =>
    obtain ⟨-, rfl⟩ | ⟨i, u, -, hu, rfl⟩ := hostAwait_next h
    · rfl
    · rw [State.announce_inputs, State.settle_inputs, exec_inputs hu]
  | readM a =>
    obtain ⟨-, -, rfl⟩ := hostReadM_next h
    rfl
  | writeM a v =>
    obtain ⟨-, -, rfl⟩ := hostWriteM_next h
    rfl
  | readReg r =>
    obtain rfl := hostReadReg_next h
    rfl
  | writeReg r v =>
    obtain rfl := hostWriteReg_next r v h
    rfl
  | reset =>
    obtain ⟨-, rfl⟩ | ⟨w, -, rfl⟩ := hostReset_next h
    · rfl
    · rw [State.spoilWindow_inputs, State.clearRegs_inputs]
  | select k =>
    obtain ⟨u, -, rfl⟩ := hostSelect_next h
    rfl

end Machine
end Sys2Proof
end

section
/-! SUPPORT. `BUSY` over the host's events (spec 10_state.md R26). -/

namespace Sys2Proof
namespace Machine

theorem hostPresent_busy {cmd : Nat} {s t : State} (h : hostPresent cmd s = .next t) : s.busy = 0 ∧ t.busy = 1 := by
  obtain ⟨hb, i, -, rfl⟩ := hostPresent_next h
  exact ⟨hb, s.accept_busy i⟩

theorem hostCommand_busy {cmd : Nat} {s t : State} (h : hostCommand cmd s = .next t) : s.busy = 0 ∧ t.busy = 0 := by
  obtain ⟨hb, i, u, -, hu, rfl⟩ := hostCommand_next h
  rw [State.announce_busy]
  exact ⟨hb, exec_busy hu⟩

theorem hostAwait_busy {s t : State} (h : hostAwait s = .next t) : t.busy = 0 := by
  obtain ⟨hi, rfl⟩ | ⟨i, u, -, hu, rfl⟩ := hostAwait_next h
  · exact t.busy_eq_zero.mpr hi
  · rw [State.announce_busy, State.settle_busy, exec_busy hu]

theorem hostReset_busy {s t : State} (h : hostReset s = .next t) : t.busy = 0 := by
  rw [t.busy_eq_zero]
  obtain ⟨-, rfl⟩ | ⟨w, -, rfl⟩ := hostReset_next h
  · exact s.clearRegs_inFlight
  · rw [State.spoilWindow_inFlight, State.clearRegs_inFlight]

/-- An access of the host to `M` or to a register (10_state.md R30). -/
def IsHostAccess (e : HostEvent) : Prop :=
  (∃ a, e = .readM a) ∨ (∃ a v, e = .writeM a v) ∨ (∃ r, e = .readReg r) ∨ (∃ r v, e = .writeReg r v)

theorem hostAccess_busy {e : HostEvent} {s t : State} (he : IsHostAccess e) (h : hostEvent e s = .next t) :
    t.busy = s.busy := by
  obtain ⟨a, rfl⟩ | ⟨a, v, rfl⟩ | ⟨r, rfl⟩ | ⟨r, v, rfl⟩ := he
  · obtain ⟨-, -, rfl⟩ := hostReadM_next h
    exact s.setBus_busy _
  · obtain ⟨-, -, rfl⟩ := hostWriteM_next h
    exact s.setMem_busy _
  · obtain rfl := hostReadReg_next h
    exact s.setBus_busy _
  · obtain rfl := hostWriteReg_next r v h
    rfl

/-- An event of the transaction-level model leaves an idle unit idle. -/
theorem hostEvent_busy_of_transactionLevel {e : HostEvent} {s t : State} (he : TransactionLevel e) (hb : s.busy = 0)
    (h : hostEvent e s = .next t) : t.busy = 0 := by
  cases e with
  | command cmd => exact (hostCommand_busy h).2
  | await => exact hostAwait_busy h
  | reset => exact hostReset_busy h
  | readM a => rw [hostAccess_busy (.inl ⟨a, rfl⟩) h, hb]
  | writeM a v => rw [hostAccess_busy (.inr (.inl ⟨a, v, rfl⟩)) h, hb]
  | readReg r => rw [hostAccess_busy (.inr (.inr (.inl ⟨r, rfl⟩))) h, hb]
  | writeReg r v => rw [hostAccess_busy (.inr (.inr (.inr ⟨r, v, rfl⟩))) h, hb]
  | present cmd => exact he.elim
  | select k => exact he.elim

/-- Settles O18: one inversion per host event gives the first half; the second is its case analysis over the events of
the transaction-level model. -/
theorem busyFollowsHandshake : Obligations.BusyFollowsHandshake := by
  unfold Obligations.BusyFollowsHandshake
  constructor
  · intro s t e rest hin hstep
    rw [step_of_inputs hin] at hstep
    rw [← s.setInputs_busy rest]
    refine ⟨?_, ?_, ?_, ?_, fun he => hostAccess_busy he hstep⟩
    · rintro ⟨c, rfl⟩
      exact hostPresent_busy hstep
    · rintro ⟨c, rfl⟩
      exact hostCommand_busy hstep
    · rintro rfl
      exact hostAwait_busy hstep
    · rintro rfl
      exact hostReset_busy hstep
  · intro s t hlevel hb hstep
    cases hin : s.inputs with
    | nil =>
      obtain rfl : s = t := by simpa [step_of_no_inputs hin] using hstep
      exact ⟨hb, hlevel⟩
    | cons e rest =>
      rw [step_of_inputs hin] at hstep
      rw [hin, List.forall_mem_cons] at hlevel
      rw [← s.setInputs_busy rest] at hb
      obtain ⟨he, hrest⟩ := hlevel
      refine ⟨hostEvent_busy_of_transactionLevel he hb hstep, ?_⟩
      rw [hostEvent_inputs hstep]
      exact hrest

end Machine
end Sys2Proof
end

section
/-! SUPPORT. The completion code, `PREMUL` and `RES` of every command (spec 10_state.md R21 to R25,
60_exceptions.md R154). -/

namespace Sys2Proof
namespace Machine

section StatusWord
variable (e : ErrCode) (b : Bool)
@[simp] theorem statusErr_statusWord : statusErr (statusWord e b) = e.bits := by cases e <;> cases b <;> rfl
@[simp] theorem statusPremul_statusWord : statusPremul (statusWord e b) = b := by cases e <;> cases b <;> rfl
@[simp] theorem statusReserved_statusWord : statusReserved (statusWord e b) = 0 := by cases e <;> cases b <;> rfl
end StatusWord

@[simp] theorem ErrCode.bits_eq_zero (e : ErrCode) : e.bits = 0#2 ↔ e = .ok := by cases e <;> decide

/-- The completion code of command `i` (60_exceptions.md R154): a reserved `op`, then the checks of a decode. -/
def completionCode (p : Params) (i : Instr) : ErrCode :=
  if i.op = 0x2 ∨ 0x9 ≤ i.op then .illegalOp
  else if i.isDecode then (decodeError p i.dst i.stride).getD .ok
  else .ok

/-- `PREMUL` after command `i` (10_state.md R23). -/
def completionPremul (p : Params) (i : Instr) : Bool :=
  decide (completionCode p i = .ok) && (i.op == 0x0 || i.op == 0x1)

/-- The checks of a decode report only errors. -/
theorem decodeError_ne_ok {p : Params} {dst stride : Nat} {e : ErrCode} (h : decodeError p dst stride = some e) :
    e ≠ .ok := by
  unfold decodeError at h
  split at h
  · cases h
    decide
  · split at h
    · cases h
      decide
    · cases h

/-- The completion of a decode: `RES` is 0, and `PREMUL` is the command's where its checks pass. -/
theorem decodeInto_complete (dst stride : Nat) (tile : Tile) (premul : Bool) (s : State) :
    ∃ m, decodeInto dst stride tile premul s =
      (s.setMem m).complete ((decodeError s.params dst stride).getD .ok)
        (decide ((decodeError s.params dst stride).getD .ok = .ok) && premul) 0 := by
  unfold decodeInto
  cases h : decodeError s.params dst stride with
  | none => exact ⟨tileWrite dst stride tile s.mem, rfl⟩
  | some e =>
    have he : e ≠ .ok := decodeError_ne_ok h
    exact ⟨s.mem, by simp [he]⟩

/-- What every command completes with. `RES` is 0 but for a sub-block operation's (10_state.md R25). -/
theorem exec_complete (i : Instr) (s : State) :
    ∃ m r, exec i s = .next ((s.setMem m).complete (completionCode s.params i) (completionPremul s.params i) r) ∧
      (i.op < 0x4 ∨ completionCode s.params i ≠ .ok → r = 0) := by
  cases i with
  | decBc1 blk dst stride =>
    obtain ⟨m, hm⟩ := decodeInto_complete dst stride (bc1Tile .bc1 blk) true s
    exact ⟨m, 0, congrArg _ hm, fun _ => rfl⟩
  | decBc1a blk dst stride =>
    obtain ⟨m, hm⟩ := decodeInto_complete dst stride (bc1Tile .bc1a blk) true s
    exact ⟨m, 0, congrArg _ hm, fun _ => rfl⟩
  | decBc3 blk dst stride =>
    obtain ⟨m, hm⟩ := decodeInto_complete dst stride (bc3Tile blk) false s
    exact ⟨m, 0, congrArg _ hm, fun _ => rfl⟩
  | expand565 | cpalBc1 | cpalBc1a | cpal4c | apal =>
    exact ⟨s.mem, _, rfl, fun h => absurd h (by simp [completionCode, Instr.op, Instr.isDecode])⟩
  | _ => exact ⟨s.mem, 0, rfl, fun _ => rfl⟩

/-- Settles O43: the completion code, `PREMUL` and `RES` are those of `exec_complete`, read back out of `STATUS`. -/
theorem statusAndResAfterCompletion : Obligations.StatusAndResAfterCompletion := by
  unfold Obligations.StatusAndResAfterCompletion
  intro i s t h
  obtain ⟨m, r, hexec, hres⟩ := exec_complete i s
  obtain rfl : t = (s.setMem m).complete (completionCode s.params i) (completionPremul s.params i) r := by
    simpa [h] using hexec
  refine ⟨?_, ?_, ?_⟩
  · simp [completionPremul]
  · simp
  · simpa using hres

end Machine
end Sys2Proof
end

section
/-! SUPPORT. What the writes of a decode do to `M`, whatever `M` held and whatever their order (spec 20_memory.md R41,
R46). -/

namespace Sys2Proof
namespace Machine

/-- Writes to distinct addresses may be performed in any order. -/
theorem Memory.writeAll_perm {m : Memory} (hm : Memory.wf m) {l l' : List Host.Cell} (hp : l.Perm l')
    (hd : (l.map (·.1)).Nodup) : Memory.writeAll m l = Memory.writeAll m l' := by
  have hd' : (l'.map (·.1)).Nodup := (hp.map _).nodup_iff.mp hd
  refine Memory.ext (Memory.wf_writeAll hm l) (Memory.wf_writeAll hm l') fun a => ?_
  by_cases h : ∃ c ∈ l, c.1 = a
  · obtain ⟨c, hc, rfl⟩ := h
    rw [Memory.read_writeAll_of_mem hd hc, Memory.read_writeAll_of_mem hd' (hp.mem_iff.mp hc)]
  · have hl : ∀ c ∈ l, c.1 ≠ a := fun c hc he => h ⟨c, hc, he⟩
    rw [Memory.read_writeAll_of_notMem hl,
      Memory.read_writeAll_of_notMem fun c hc => hl c (hp.mem_iff.mpr hc)]

/-- The addresses of a tile write are distinct where its rows do not overlap. -/
theorem tileBytes_addresses_nodup (dst : Nat) {stride : Nat} (tile : Tile) (hs : 16 ≤ stride) :
    ((tileBytes dst stride tile).map (·.1)).Nodup := by
  rw [tileBytes_addresses]
  exact Window.addresses_nodup hs

/-- Settles O47: the 64 addresses are those of the window, and writes to distinct addresses commute. -/
theorem tileWriteOrderIrrelevant : Obligations.TileWriteOrderIrrelevant := by
  unfold Obligations.TileWriteOrderIrrelevant
  intro dst stride tile hs
  have hd := tileBytes_addresses_nodup dst tile hs
  exact ⟨hd, fun m l hm hp => Memory.writeAll_perm hm hp ((hp.map _).nodup_iff.mpr hd)⟩

/-- A tile write leaves each byte with a value of its own or as it was, and which of the two does not depend on the memory
before. -/
theorem read_tileWrite_eq_or_unchanged (dst : Nat) {stride : Nat} (tile : Tile) (hs : 16 ≤ stride) (m n : Memory)
    (a : Nat) :
    Memory.read (tileWrite dst stride tile m) a = Memory.read (tileWrite dst stride tile n) a ∨
      (Memory.read (tileWrite dst stride tile m) a = Memory.read m a ∧
        Memory.read (tileWrite dst stride tile n) a = Memory.read n a) := by
  cases h : Window.contains ⟨dst, stride⟩ a with
  | true =>
    obtain ⟨v, -, hv⟩ := read_tileWrite_of_inside tile hs h
    exact .inl (by rw [hv m, hv n])
  | false => exact .inr ⟨read_tileWrite_of_outside tile m h, read_tileWrite_of_outside tile n h⟩

/-- Completions with the same results of states that differ in `M` only differ in `M` only. -/
theorem State.complete_setMem_eq_setMem (s : State) (m n : Memory) (e : ErrCode) (b : Bool) (r : BitVec 128) :
    (s.setMem n).complete e b r = ((s.setMem m).complete e b r).setMem ((s.setMem n).complete e b r).mem := rfl

/-- Settles O45: by `exec_spec` both runs complete with the same results, and either neither writes `M` or both write the
same tile. -/
theorem unitNeverReadsMemory : Obligations.UnitNeverReadsMemory := by
  unfold Obligations.UnitNeverReadsMemory
  intro i s t t' m ht ht'
  obtain ⟨e, b, r, hplain, hdecode⟩ := exec_spec s.params i
  cases hw : commandWindow s.params i with
  | none =>
    obtain rfl : s.complete e b r = t := by simpa [hplain s rfl hw] using ht
    obtain rfl : (s.setMem m).complete e b r = t' := by simpa [hplain (s.setMem m) rfl hw] using ht'
    exact ⟨s.complete_setMem_eq_setMem s.mem m e b r, fun a => .inr ⟨rfl, rfl⟩⟩
  | some w =>
    obtain ⟨tile, -, hexec⟩ := hdecode w hw
    obtain ⟨hs, -⟩ := commandWindow_bounds hw
    obtain rfl : (s.setMem (tileWrite w.dst w.stride tile s.mem)).complete e b r = t := by
      simpa [hexec s rfl] using ht
    obtain rfl : (s.setMem (tileWrite w.dst w.stride tile m)).complete e b r = t' := by
      simpa [hexec (s.setMem m) rfl] using ht'
    refine ⟨s.complete_setMem_eq_setMem _ _ e b r, fun a => ?_⟩
    simp only [State.complete_mem, State.setMem_mem]
    exact read_tileWrite_eq_or_unchanged w.dst tile hs s.mem m a

end Machine
end Sys2Proof
end

section
/-! SUPPORT. `CMD` as a number in mixed radix, and the opcode map (spec 30_encoding.md R60, R62, R73). -/

namespace Sys2Proof
namespace Machine

/-- The four fields of `CMD` are its digits, each of the width of its field (R60). -/
theorem encode_eq (p : Params) (i : Instr) :
    encode p i = i.op.toNat + 2 ^ 4 * (i.blk.toNat + 2 ^ 128 * (i.dst + 2 ^ p.aw * i.stride)) := by
  unfold encode
  ring

theorem encode_mod (p : Params) (i : Instr) : encode p i % 2 ^ 4 = i.op.toNat := by
  rw [encode_eq, Nat.add_mul_mod_self_left, Nat.mod_eq_of_lt i.op.isLt]

theorem encode_div_op (p : Params) (i : Instr) :
    encode p i / 2 ^ 4 = i.blk.toNat + 2 ^ 128 * (i.dst + 2 ^ p.aw * i.stride) := by
  rw [encode_eq, Nat.add_mul_div_left _ _ (by decide), Nat.div_eq_of_lt i.op.isLt, Nat.zero_add]

theorem encode_div_blk (p : Params) (i : Instr) : encode p i / 2 ^ 132 = i.dst + 2 ^ p.aw * i.stride := by
  rw [show 2 ^ 132 = 2 ^ 4 * 2 ^ 128 from rfl, ← Nat.div_div_eq_div_mul, encode_div_op,
    Nat.add_mul_div_left _ _ (by decide), Nat.div_eq_of_lt i.blk.isLt, Nat.zero_add]

theorem encode_div_dst {p : Params} {i : Instr} (hd : i.dst < 2 ^ p.aw) : encode p i / 2 ^ (132 + p.aw) = i.stride := by
  rw [pow_add, ← Nat.div_div_eq_div_mul, encode_div_blk, Nat.add_mul_div_left _ _ (Nat.two_pow_pos _),
    Nat.div_eq_of_lt hd, Nat.zero_add]

/-- A well-formed command has the length of `CMD`: nothing stands above its `stride` field. -/
theorem encode_lt {p : Params} {i : Instr} (h : i.WellFormed p) : encode p i < 2 ^ (132 + p.aw + p.sw) := by
  obtain ⟨hd, hs⟩ := h
  rwa [pow_add, mul_comm, ← Nat.div_lt_iff_lt_mul (Nat.two_pow_pos _), encode_div_dst hd]

/-- Settles O9: each field is the digit of `encode_eq` at its place. -/
theorem commandFields : Obligations.CommandFields := by
  unfold Obligations.CommandFields
  intro p i ⟨hd, hs⟩
  refine ⟨encode_lt ⟨hd, hs⟩, encode_mod p i, ?_, ?_, encode_div_dst hd⟩
  · rw [encode_div_op, Nat.add_mul_mod_self_left, Nat.mod_eq_of_lt i.blk.isLt]
  · rw [encode_div_blk, Nat.add_mul_mod_self_left, Nat.mod_eq_of_lt hd]

/-- A number that fits `CMD` decodes to the row of its `op`, given its other three fields. -/
theorem decode_of_lt {p : Params} {w : Nat} (hw : w < 2 ^ p.cmdBits) :
    decode p w = .ok (opcodeMap.get (cmdOp w).toFin (cmdBlk w) (cmdDst p w) (cmdStride p w)) :=
  if_pos hw

/-- Row `k` of the opcode map is the operation whose `op` is `k`, whatever its operands (R62). -/
@[simp] theorem opcodeMap_get_op (k : Fin 16) (b : Block) (d s : Nat) :
    (opcodeMap.get k b d s).op = BitVec.ofFin k := by
  fin_cases k <;> rfl

/-- The checks of a decode never report a reserved `op`. -/
theorem decodeError_ne_illegalOp (p : Params) (dst stride : Nat) : decodeError p dst stride ≠ some .illegalOp := by
  unfold decodeError
  split
  · decide
  · split <;> decide

/-- A command is illegal by its `op` alone (R73). -/
theorem completionCode_eq_illegalOp (p : Params) (i : Instr) :
    completionCode p i = .illegalOp ↔ i.op = 0x2 ∨ 0x9 ≤ i.op := by
  unfold completionCode
  split
  next hop => exact iff_of_true rfl hop
  next hop =>
    refine iff_of_false ?_ hop
    split
    · cases h : decodeError p i.dst i.stride with
      | none => decide
      | some e => exact fun he => decodeError_ne_illegalOp p i.dst i.stride (he ▸ h)
    · decide

theorem ErrCode.bits_eq_illegalOp (e : ErrCode) : e.bits = ErrCode.illegalOp.bits ↔ e = .illegalOp := by
  cases e <;> decide

/-- Settles O10: the decoder takes the row of `op`, the rows have the 16 values of `op` in order, and `STATUS.ERR` of a
completed command is its `completionCode`. -/
theorem decoderIsTotal : Obligations.DecoderIsTotal := by
  unfold Obligations.DecoderIsTotal
  refine ⟨?_, ?_, ?_⟩
  · intro p w hw
    exact ⟨_, decode_of_lt hw, opcodeMap_get_op ..⟩
  · intro op
    refine ⟨op.toFin, fun b d s => opcodeMap_get_op .., fun k hk => ?_⟩
    rw [← hk 0 0 0, opcodeMap_get_op]
  · intro i s t h
    obtain ⟨m, r, hexec, -⟩ := exec_complete i s
    obtain rfl : (s.setMem m).complete (completionCode s.params i) (completionPremul s.params i) r = t := by
      simpa [hexec] using h
    rw [State.complete_status, statusErr_statusWord, ErrCode.bits_eq_illegalOp, completionCode_eq_illegalOp]

end Machine
end Sys2Proof
end

section
/-! SUPPORT. The assembler's expansions (spec 30_encoding.md R71, R72). -/

namespace Sys2Proof
namespace Machine

/-- An expansion is its own expansion. -/
theorem expandPseudo_idem {l l' : AsmLine} (h : expandPseudo l = some l') : expandPseudo l' = some l' := by
  have hl := h
  unfold expandPseudo at hl
  split at hl
  -- The other names of a decode: the expansion has the name of R70.
  case h_1 | h_2 =>
    obtain rfl := Option.some.inj hl
    rfl
  -- The immediate forms: the expansion is the block form.
  case h_3 | h_4 | h_5 | h_6 | h_7 =>
    obtain ⟨-, hblock⟩ := Option.ite_none_right_eq_some.mp hl
    obtain rfl := Option.some.inj hblock
    rfl
  -- Every other line is its own expansion.
  case h_8 =>
    obtain rfl : l = l' := Option.some.inj hl
    exact h

/-- A line assembles as its expansion does. -/
theorem assemble_of_expandPseudo (p : Params) {l l' : AsmLine} (h : expandPseudo l = some l') :
    assemble p l = assemble p l' := by
  unfold assemble asmInstr
  rw [h, expandPseudo_idem h]

/-- A line without an expansion is refused. -/
theorem assemble_eq_none_of_expandPseudo (p : Params) {l : AsmLine} (h : expandPseudo l = none) :
    assemble p l = none := by
  unfold assemble asmInstr
  rw [h]
  rfl

/-- The three colour palette operations have one immediate form. -/
theorem expandPseudo_cpal {m : Mnemonic} (hm : m = .cpalBc1 ∨ m = .cpalBc1a ∨ m = .cpal4c) (c d : Nat) :
    expandPseudo ⟨m, [.imm c, .imm d]⟩ =
      if c ≤ 0xFFFF ∧ d ≤ 0xFFFF then some ⟨m, [.block (immBytes c ++ immBytes d)]⟩ else none := by
  obtain rfl | rfl | rfl := hm <;> rfl

/-- Settles O55: each immediate form expands to the block form where its immediates are in range, and has no expansion
elsewhere. -/
theorem pseudoInstructionExpansions : Obligations.PseudoInstructionExpansions := by
  unfold Obligations.PseudoInstructionExpansions
  intro p ops c d
  refine ⟨assemble_of_expandPseudo p rfl, assemble_of_expandPseudo p rfl, fun hc => ?_, fun hc => ?_,
    fun m hm => ⟨fun hc hd => ?_, fun hcd => ?_⟩, fun hc hd => ?_, fun hcd => ?_⟩
  · exact assemble_of_expandPseudo p (if_pos hc)
  · exact assemble_eq_none_of_expandPseudo p (if_neg (by omega))
  · exact assemble_of_expandPseudo p ((expandPseudo_cpal hm c d).trans (if_pos ⟨hc, hd⟩))
  · exact assemble_eq_none_of_expandPseudo p ((expandPseudo_cpal hm c d).trans (if_neg (by omega)))
  · exact assemble_of_expandPseudo p (if_pos ⟨hc, hd⟩)
  · exact assemble_eq_none_of_expandPseudo p (if_neg (by omega))

end Machine
end Sys2Proof
end

section
/-! SUPPORT. Slices of `blk` (spec 30_encoding.md R63). -/

namespace Sys2Proof
namespace Machine

/-- A slice of `blk` put above the byte below it is the longer slice. -/
theorem extractLsb'_append_blockByte (blk : Block) (i n : Nat) :
    blk.extractLsb' (8 * (i + 1)) n ++ blockByte blk i = blk.extractLsb' (8 * i) (n + 8) :=
  BitVec.extractLsb'_append_extractLsb'_eq_extractLsb' rfl

theorem le16_eq_extractLsb' (blk : Block) (i : Nat) : le16 blk i = blk.extractLsb' (8 * i) 16 :=
  extractLsb'_append_blockByte blk i 8

theorem le32_eq_extractLsb' (blk : Block) (i : Nat) : le32 blk i = blk.extractLsb' (8 * i) 32 :=
  calc le32 blk i = le16 blk (i + 2) ++ blockByte blk (i + 1) ++ blockByte blk i := rfl
    _ = blk.extractLsb' (8 * (i + 1)) 24 ++ blockByte blk i := by
      rw [le16_eq_extractLsb', extractLsb'_append_blockByte blk (i + 1) 16]
    _ = blk.extractLsb' (8 * i) 32 := extractLsb'_append_blockByte blk i 24

theorem le48_eq_extractLsb' (blk : Block) (i : Nat) : le48 blk i = blk.extractLsb' (8 * i) 48 :=
  calc le48 blk i = le32 blk (i + 2) ++ blockByte blk (i + 1) ++ blockByte blk i := rfl
    _ = blk.extractLsb' (8 * (i + 1)) 40 ++ blockByte blk i := by
      rw [le32_eq_extractLsb', extractLsb'_append_blockByte blk (i + 1) 32]
    _ = blk.extractLsb' (8 * i) 48 := extractLsb'_append_blockByte blk i 40

/-- Settles O13: the byte forms are the definitions; the slices grow by one byte at a time. -/
theorem littleEndianFields : Obligations.LittleEndianFields := by
  unfold Obligations.LittleEndianFields
  intro blk i
  exact ⟨rfl, rfl, rfl, le16_eq_extractLsb' blk i, le32_eq_extractLsb' blk i, le48_eq_extractLsb' blk i⟩

end Machine
end Sys2Proof
end

section
/-! SUPPORT. The RGB565 expansion (spec 40_rgb565.md): a widened field is the field followed by its own top bits, and every
law of the expansion is read off that form. -/

namespace Sys2Proof
namespace Machine

section TopBits
variable {n k m : Nat} (v : BitVec n)

/-- A slice that reaches the top of a word is the word shifted down. -/
theorem toNat_extractLsb'_of_le (h : n ≤ k + m) : (v.extractLsb' k m).toNat = v.toNat >>> k := by
  have hlt : v.toNat >>> k < 2 ^ m := by
    rw [Nat.shiftRight_eq_div_pow, Nat.div_lt_iff_lt_mul (Nat.two_pow_pos k), ← pow_add, add_comm]
    exact v.isLt.trans_le (Nat.pow_le_pow_right (by decide) h)
  rw [BitVec.extractLsb'_toNat, Nat.mod_eq_of_lt hlt]

/-- A slice of a slice. -/
theorem extractLsb'_extractLsb' {i j l : Nat} (h : j + l ≤ m) :
    (v.extractLsb' i m).extractLsb' j l = v.extractLsb' (i + j) l := by
  ext b hb
  have hm : j + b < m := by omega
  simp [hm, add_assoc]

/-- The two shifts of R81 put a field above its own top bits. -/
theorem shiftLeft_or_ushiftRight_eq_append (h : n ≤ k + m) :
    (v.setWidth (n + m) <<< m) ||| (v.setWidth (n + m) >>> k) = v ++ v.extractLsb' k m := by
  have hlow : (v.extractLsb' k m).setWidth (n + m) = v.setWidth (n + m) >>> k := by
    apply BitVec.eq_of_toNat_eq
    rw [BitVec.toNat_setWidth_of_le (by omega), toNat_extractLsb'_of_le v h, BitVec.toNat_ushiftRight,
      BitVec.toNat_setWidth_of_le (by omega)]
  rw [← hlow, ← BitVec.setWidth_append_eq_shiftLeft_setWidth_or, BitVec.setWidth_eq]

theorem toNat_append_topBits (h : n ≤ k + m) :
    (v ++ v.extractLsb' k m).toNat = (v.toNat <<< m) ||| (v.toNat >>> k) := by
  rw [BitVec.toNat_append, toNat_extractLsb'_of_le v h]

/-- The field and its top bits do not overlap, so their OR is their sum. -/
theorem toNat_append_topBits_add (h : n ≤ k + m) :
    (v ++ v.extractLsb' k m).toNat = (v.toNat <<< m) + (v.toNat >>> k) := by
  rw [BitVec.toNat_append, ← Nat.shiftLeft_add_eq_or_of_lt (v.extractLsb' k m).isLt, toNat_extractLsb'_of_le v h]

end TopBits

/-! ### One channel -/

theorem widen5_eq_append (v : BitVec 5) : widen5 v = v ++ v.extractLsb' 2 3 :=
  shiftLeft_or_ushiftRight_eq_append (k := 2) (m := 3) v (by decide)

theorem widen6_eq_append (v : BitVec 6) : widen6 v = v ++ v.extractLsb' 4 2 :=
  shiftLeft_or_ushiftRight_eq_append (k := 4) (m := 2) v (by decide)

theorem widen5_toNat_or (v : BitVec 5) : (widen5 v).toNat = (v.toNat <<< 3) ||| (v.toNat >>> 2) := by
  rw [widen5_eq_append]
  exact toNat_append_topBits v (by decide)

theorem widen6_toNat_or (v : BitVec 6) : (widen6 v).toNat = (v.toNat <<< 2) ||| (v.toNat >>> 4) := by
  rw [widen6_eq_append]
  exact toNat_append_topBits v (by decide)

theorem widen5_toNat (v : BitVec 5) : (widen5 v).toNat = (v.toNat <<< 3) + (v.toNat >>> 2) := by
  rw [widen5_eq_append]
  exact toNat_append_topBits_add v (by decide)

theorem widen6_toNat (v : BitVec 6) : (widen6 v).toNat = (v.toNat <<< 2) + (v.toNat >>> 4) := by
  rw [widen6_eq_append]
  exact toNat_append_topBits_add v (by decide)

/-- The top five bits of a widened field are the field (R82). -/
theorem widen5_extractLsb' (v : BitVec 5) : (widen5 v).extractLsb' 3 5 = v := by
  rw [widen5_eq_append]
  exact BitVec.extractLsb'_append_eq_left

/-- The top six bits of a widened field are the field (R82). -/
theorem widen6_extractLsb' (v : BitVec 6) : (widen6 v).extractLsb' 2 6 = v := by
  rw [widen6_eq_append]
  exact BitVec.extractLsb'_append_eq_left

theorem widen5_lt_widen5 {v w : BitVec 5} (h : v < w) : widen5 v < widen5 w := by
  rw [BitVec.lt_def] at h ⊢
  rw [widen5_toNat, widen5_toNat]
  omega

theorem widen6_lt_widen6 {v w : BitVec 6} (h : v < w) : widen6 v < widen6 w := by
  rw [BitVec.lt_def] at h ⊢
  rw [widen6_toNat, widen6_toNat]
  omega

theorem widen5_toNat_div (v : BitVec 5) : (widen5 v).toNat / 8 = v.toNat := by
  rw [widen5_toNat]
  omega

theorem widen6_toNat_div (v : BitVec 6) : (widen6 v).toNat / 4 = v.toNat := by
  rw [widen6_toNat]
  omega

/-! ### The three channels -/

/-- Each channel of an expanded colour as slices of the packed one (R81, its bit-slice form). -/
theorem expand565_eq (c : Packed565) :
    expand565 c = ⟨c.extractLsb' 11 5 ++ c.extractLsb' 13 3, c.extractLsb' 5 6 ++ c.extractLsb' 9 2,
      c.extractLsb' 0 5 ++ c.extractLsb' 2 3⟩ := by
  unfold expand565 red5 green6 blue5
  simp (disch := decide) only [widen5_eq_append, widen6_eq_append, extractLsb'_extractLsb', Nat.reduceAdd]

/-- Settles O24: the slices are `expand565_eq`; the OR and the sum are those of a field above its own top bits. -/
theorem expandReplicatesTopBits : Obligations.ExpandReplicatesTopBits := by
  unfold Obligations.ExpandReplicatesTopBits
  intro c r5 g6 b5 x
  refine ⟨?_, ⟨widen5_toNat_or r5, widen6_toNat_or g6, widen5_toNat_or b5⟩,
    widen5_toNat r5, widen6_toNat g6, widen5_toNat b5⟩
  have hx : x = _ := expand565_eq c
  rw [hx]
  exact ⟨rfl, rfl, rfl⟩

/-- The three fields side by side are the packed colour (R80). -/
theorem fields_append (c : Packed565) : red5 c ++ green6 c ++ blue5 c = c :=
  calc red5 c ++ green6 c ++ blue5 c = c.extractLsb' 5 11 ++ c.extractLsb' 0 5 :=
        congrArg (· ++ blue5 c) (BitVec.extractLsb'_append_extractLsb'_eq_extractLsb' rfl)
    _ = c := BitVec.extractLsb'_append_extractLsb'

/-- Settles O26: packing reads each field back off the top of its channel. -/
theorem packOfExpand : Obligations.PackOfExpand := by
  unfold Obligations.PackOfExpand
  intro c
  unfold pack565 expand565
  rw [widen5_extractLsb', widen6_extractLsb', widen5_extractLsb']
  exact fields_append c

/-- Packing is a left inverse of the expansion, so the expansion forgets nothing. -/
theorem expand565_injective : Function.Injective expand565 :=
  Function.LeftInverse.injective packOfExpand

/-- Settles O25: the laws of one channel, and the injectivity that the round trip gives. -/
theorem expandLaws : Obligations.ExpandLaws := by
  unfold Obligations.ExpandLaws
  exact ⟨by decide, fun _ _ => widen5_lt_widen5, fun _ _ => widen6_lt_widen6, fun _ _ h => expand565_injective h,
    fun c => ⟨widen5_toNat_div (red5 c), widen6_toNat_div (green6 c), widen5_toNat_div (blue5 c)⟩⟩

/-! ### The operation -/

/-- `RES` holds 104 zero bits above the three channels (R84). -/
theorem packRgb_eq_append (x : Rgb) : packRgb x = 0#104 ++ x.b ++ x.g ++ x.r := by
  unfold packRgb
  rw [BitVec.setWidth_eq_append (by decide), BitVec.append_assoc, BitVec.append_assoc, BitVec.append_assoc]
  rfl

/-- The expanded colour of `blk[15:0]` as slices of `blk`. -/
theorem expand565_le16 (blk : Block) :
    expand565 (le16 blk 0) = ⟨blk.extractLsb' 11 5 ++ blk.extractLsb' 13 3, blk.extractLsb' 5 6 ++ blk.extractLsb' 9 2,
      blk.extractLsb' 0 5 ++ blk.extractLsb' 2 3⟩ := by
  have hc : le16 blk 0 = blk.extractLsb' 0 16 := le16_eq_extractLsb' blk 0
  rw [expand565_eq, hc]
  simp (disch := decide) only [BitVec.extractLsb'_extractLsb'_of_le]

theorem exec_expand565 (blk : Block) (dst stride : Nat) (s : State) :
    exec (.expand565 blk dst stride) s = .next (s.complete .ok false (packRgb (expand565 (le16 blk 0)))) := rfl

/-- Settles O27: the operation completes with the packed expansion of `blk[15:0]`, whose slices are those of `blk`. -/
theorem expand565Result : Obligations.Expand565Result := by
  unfold Obligations.Expand565Result
  intro blk dst stride s
  refine ⟨rfl, ?_⟩
  rw [exec_expand565, State.complete_eq_completed, packRgb_eq_append, expand565_le16]
  rfl

end Machine
end Sys2Proof
end

section
/-! SUPPORT. Interpolation and the colour palette (spec 41_bc1.md R91 to R95, R103): the weights of a blend sum to its
divisor, so a blend lies between its endpoints and its byte loses nothing. -/

namespace Sys2Proof
namespace Machine

/-! ### One interpolated channel -/

section Blend
variable {m n d : Nat} (x y : Byte)

/-- A truncated weighted mean lies between its two terms. -/
theorem weightedMean_between (hd : 0 < d) (hw : m + n = d) (a b : Nat) :
    min a b ≤ (m * a + n * b) / d ∧ (m * a + n * b) / d ≤ max a b := by
  subst hw
  rw [Nat.le_div_iff_mul_le hd]
  have hlow : min a b * (m + n) ≤ m * a + n * b :=
    calc min a b * (m + n) = m * min a b + n * min a b := by ring
      _ ≤ m * a + n * b := by gcongr <;> simp
  have hhigh : m * a + n * b ≤ max a b * (m + n) :=
    calc m * a + n * b ≤ m * max a b + n * max a b := by gcongr <;> simp
      _ = max a b * (m + n) := by ring
  exact ⟨hlow, Nat.div_le_of_le_mul (hhigh.trans_eq (mul_comm _ _))⟩

/-- A blend loses nothing to its width: its value is the truncated quotient of the exact numerator (R95). -/
theorem toNat_blend (hd : 0 < d) (hw : m + n = d) :
    (blend m n d x y).toNat = (m * x.toNat + n * y.toNat) / d := by
  obtain ⟨-, hhigh⟩ := weightedMean_between hd hw x.toNat y.toNat
  unfold blend
  rw [BitVec.toNat_ofNat, Nat.mod_eq_of_lt (hhigh.trans_lt (max_lt x.isLt y.isLt))]

/-- A blend lies between its endpoints (R103). -/
theorem blend_between (hd : 0 < d) (hw : m + n = d) :
    min x.toNat y.toNat ≤ (blend m n d x y).toNat ∧ (blend m n d x y).toNat ≤ max x.toNat y.toNat := by
  rw [toNat_blend x y hd hw]
  exact weightedMean_between hd hw x.toNat y.toNat

/-- Exchanging the endpoints exchanges the weights. -/
theorem blend_swap : blend m n d x y = blend n m d y x := by
  unfold blend
  rw [add_comm]

end Blend

/-- Exchanging the endpoints exchanges the weights, in every channel. -/
theorem blendRgb_swap (m n d : Nat) (x y : Rgb) : blendRgb m n d x y = blendRgb n m d y x := by
  unfold blendRgb
  rw [blend_swap x.r, blend_swap x.g, blend_swap x.b]

/-- The channels of a blended entry: exact numerators, truncating divisions, alpha 255. -/
theorem blendRgb_toNat {m n d : Nat} (hd : 0 < d) (hw : m + n = d) (x y : Rgb) :
    (blendRgb m n d x y).r.toNat = (m * x.r.toNat + n * y.r.toNat) / d ∧
    (blendRgb m n d x y).g.toNat = (m * x.g.toNat + n * y.g.toNat) / d ∧
    (blendRgb m n d x y).b.toNat = (m * x.b.toNat + n * y.b.toNat) / d ∧ (blendRgb m n d x y).a = 255 :=
  ⟨toNat_blend x.r y.r hd hw, toNat_blend x.g y.g hd hw, toNat_blend x.b y.b hd hw, rfl⟩

/-- Every channel of `z` lies between those of `x` and `y`. -/
def ChannelsBetween (x y : Rgb) (z : Pixel) : Prop :=
  (min x.r.toNat y.r.toNat ≤ z.r.toNat ∧ z.r.toNat ≤ max x.r.toNat y.r.toNat) ∧
  (min x.g.toNat y.g.toNat ≤ z.g.toNat ∧ z.g.toNat ≤ max x.g.toNat y.g.toNat) ∧
  (min x.b.toNat y.b.toNat ≤ z.b.toNat ∧ z.b.toNat ≤ max x.b.toNat y.b.toNat)

theorem channelsBetween_blendRgb {m n d : Nat} (hd : 0 < d) (hw : m + n = d) (x y : Rgb) :
    ChannelsBetween x y (blendRgb m n d x y) :=
  ⟨blend_between x.r y.r hd hw, blend_between x.g y.g hd hw, blend_between x.b y.b hd hw⟩

/-! ### The four entries -/

/-- The four-colour mode is forced, or chosen by the order of the raw endpoints (R91). -/
theorem isFourColour_iff (c0 c1 : Packed565) (mode : PaletteMode) :
    isFourColour c0 c1 mode = true ↔ mode = .four ∨ c0.toNat > c1.toNat := by
  simp [isFourColour, BitVec.lt_def]

section Palette
variable {c0 c1 : Packed565} {mode : PaletteMode}

theorem colorPalette_of_fourColour (h : isFourColour c0 c1 mode = true) :
    colorPalette c0 c1 mode = #v[opaquePixel (expand565 c0), opaquePixel (expand565 c1),
      blendRgb 2 1 3 (expand565 c0) (expand565 c1), blendRgb 1 2 3 (expand565 c0) (expand565 c1)] :=
  if_pos h

theorem colorPalette_of_threeColour (h : isFourColour c0 c1 mode = false) :
    colorPalette c0 c1 mode = #v[opaquePixel (expand565 c0), opaquePixel (expand565 c1),
      blendRgb 1 1 2 (expand565 c0) (expand565 c1), blackEntry mode] :=
  if_neg (by simp [h])

/-- The endpoints are the first two entries in either mode (R92, R93). -/
theorem colorPalette_endpoints (c0 c1 : Packed565) (mode : PaletteMode) :
    (colorPalette c0 c1 mode)[0] = opaquePixel (expand565 c0) ∧
      (colorPalette c0 c1 mode)[1] = opaquePixel (expand565 c1) := by
  cases h : isFourColour c0 c1 mode with
  | true => simp [colorPalette_of_fourColour h]
  | false => simp [colorPalette_of_threeColour h]

/-- The last two entries in four-colour mode are the thirds (R92). -/
theorem colorPalette_thirds (h : isFourColour c0 c1 mode = true) :
    (colorPalette c0 c1 mode)[2] = blendRgb 2 1 3 (expand565 c0) (expand565 c1) ∧
      (colorPalette c0 c1 mode)[3] = blendRgb 1 2 3 (expand565 c0) (expand565 c1) := by
  simp [colorPalette_of_fourColour h]

/-- The last two entries in three-colour mode are the half and the mode's black (R93, R94). -/
theorem colorPalette_half_black (h : isFourColour c0 c1 mode = false) :
    (colorPalette c0 c1 mode)[2] = blendRgb 1 1 2 (expand565 c0) (expand565 c1) ∧
      (colorPalette c0 c1 mode)[3] = blackEntry mode := by
  simp [colorPalette_of_threeColour h]

end Palette

/-- Settles O28: the endpoints, then the thirds or the half and the black entry, each blend read by `blendRgb_toNat`. -/
theorem colourPaletteEntries : Obligations.ColourPaletteEntries := by
  unfold Obligations.ColourPaletteEntries
  intro c0 c1 mode x y P
  obtain ⟨h0, h1⟩ := colorPalette_endpoints c0 c1 mode
  refine ⟨h0, h1, fun hfour => ?_, fun hmode hle => ?_⟩
  · obtain ⟨h2, h3⟩ := colorPalette_thirds ((isFourColour_iff c0 c1 mode).mpr hfour)
    have thirds := And.intro (blendRgb_toNat (m := 2) (n := 1) (d := 3) (by decide) rfl x y)
      (blendRgb_toNat (m := 1) (n := 2) (d := 3) (by decide) rfl x y)
    rw [← h2, ← h3] at thirds
    simpa only [Nat.one_mul] using thirds
  · have hthree : isFourColour c0 c1 mode = false := by
      rw [Bool.eq_false_iff, Ne, isFourColour_iff]
      rintro (h | h)
      · exact hmode h
      · omega
    obtain ⟨h2, h3⟩ := colorPalette_half_black hthree
    have half := blendRgb_toNat (m := 1) (n := 1) (d := 2) (by decide) rfl x y
    rw [← h2] at half
    refine ⟨by simpa only [Nat.one_mul] using half, ?_, ?_⟩
    · rintro rfl
      exact h3
    · rintro rfl
      exact h3

/-! ### The laws of the BC1 decode -/

/-- The two code words of R103 give every pixel index 0 and index 1. -/
theorem colorIndex_uniform (col row : Fin 4) :
    colorIndex 0x00000000#32 col row = 0 ∧ colorIndex 0x55555555#32 col row = 1 := by
  revert col row
  decide

/-- Every interpolated entry lies between the endpoints, channel by channel (R103). -/
theorem colorPalette_between (c0 c1 : Packed565) (mode : PaletteMode) (k : Fin 4)
    (hk : k.val = 2 ∨ k.val = 3 ∧ isFourColour c0 c1 mode = true) :
    ChannelsBetween (expand565 c0) (expand565 c1) (colorPalette c0 c1 mode)[k] := by
  cases h : isFourColour c0 c1 mode with
  | true =>
    obtain ⟨h2, h3⟩ := colorPalette_thirds h
    obtain hk | ⟨hk, -⟩ := hk
    · obtain rfl : k = 2 := Fin.ext hk
      exact h2 ▸ channelsBetween_blendRgb (by decide) rfl _ _
    · obtain rfl : k = 3 := Fin.ext hk
      exact h3 ▸ channelsBetween_blendRgb (by decide) rfl _ _
  | false =>
    obtain ⟨h2, -⟩ := colorPalette_half_black h
    obtain rfl : k = 2 := Fin.ext (hk.resolve_right fun hk => by simp [h] at hk)
    exact h2 ▸ channelsBetween_blendRgb (by decide) rfl _ _

/-- Exchanging the endpoints of the forced mode exchanges its two thirds (R103). -/
theorem colorPalette_four_swap (c0 c1 : Packed565) :
    (colorPalette c1 c0 .four)[2] = (colorPalette c0 c1 .four)[3] := by
  rw [(colorPalette_thirds rfl).1, (colorPalette_thirds rfl).2]
  exact blendRgb_swap 2 1 3 _ _

/-- Settles O31: uniform code words select the endpoints, the interpolated entries are weighted means, and the two numeric
examples are evaluated. -/
theorem colourPaletteLaws : Obligations.ColourPaletteLaws := by
  unfold Obligations.ColourPaletteLaws
  refine ⟨fun c0 c1 mode col row => ?_, by decide, colorPalette_between, fun c0 c1 => ?_, by decide⟩
  · obtain ⟨hzero, hone⟩ := colorIndex_uniform col row
    rw [hzero, hone]
    exact colorPalette_endpoints c0 c1 mode
  · exact ⟨colorPalette_four_swap c0 c1, (colorPalette_four_swap c1 c0).symm⟩

end Machine
end Sys2Proof
end

section
/-! SUPPORT. Code words (spec 41_bc1.md R96, 42_dxt5_alpha.md R123): shifting and masking a word is taking a slice of it. -/

namespace Sys2Proof
namespace Machine

section Slice
variable {n : Nat} (v : BitVec n) (k m : Nat)

/-- The value of a slice as the shift and mask of the rules. -/
theorem toNat_extractLsb'_eq_and : (v.extractLsb' k m).toNat = (v.toNat >>> k) &&& (2 ^ m - 1) := by
  rw [BitVec.extractLsb'_toNat, Nat.and_two_pow_sub_one_eq_mod]

/-- Shifting down, masking and cutting a word to the mask's width is taking the slice. -/
theorem setWidth_ushiftRight_and_eq_extractLsb' (hm : m ≤ n) :
    ((v >>> k) &&& BitVec.ofNat n (2 ^ m - 1)).setWidth m = v.extractLsb' k m := by
  have hmask : 2 ^ m - 1 < 2 ^ n :=
    (Nat.sub_one_lt_of_lt (Nat.two_pow_pos m)).trans_le (Nat.pow_le_pow_right (by decide) hm)
  apply BitVec.eq_of_toNat_eq
  rw [BitVec.toNat_setWidth, BitVec.toNat_and, BitVec.toNat_ushiftRight, BitVec.toNat_ofNat, Nat.mod_eq_of_lt hmask,
    Nat.and_two_pow_sub_one_eq_mod, Nat.mod_mod, BitVec.extractLsb'_toNat]

end Slice

theorem colorIndex_eq_extractLsb' (codes : BitVec 32) (col row : Fin 4) :
    colorIndex codes col row = codes.extractLsb' (2 * (4 * row.val + col.val)) 2 :=
  setWidth_ushiftRight_and_eq_extractLsb' codes _ 2 (by decide)

theorem alphaIndex_eq_extractLsb' (acode : BitVec 48) (col row : Fin 4) :
    alphaIndex acode col row = acode.extractLsb' (3 * (4 * row.val + col.val)) 3 :=
  setWidth_ushiftRight_and_eq_extractLsb' acode _ 3 (by decide)

/-- Settles O30: both indices are slices of their code word, and a slice is the shift and mask of its value. -/
theorem codeWordIndexBits : Obligations.CodeWordIndexBits := by
  unfold Obligations.CodeWordIndexBits
  intro codes acode col row
  refine ⟨colorIndex_eq_extractLsb' codes col row, alphaIndex_eq_extractLsb' acode col row, ?_, ?_⟩
  · rw [colorIndex_eq_extractLsb']
    exact toNat_extractLsb'_eq_and codes _ 2
  · rw [alphaIndex_eq_extractLsb']
    exact toNat_extractLsb'_eq_and acode _ 3

end Machine
end Sys2Proof
end

section
/-! SUPPORT. The palette operations and the BC1 decodes (spec 41_bc1.md R98 to R102), on slices of `blk`. -/

namespace Sys2Proof
namespace Machine

/-! ### The palette in `RES` -/

/-- The slices of four words side by side are the words, the last one lowest. -/
theorem extractLsb'_append_four {w : Nat} (x₃ x₂ x₁ x₀ : BitVec w) :
    (x₃ ++ x₂ ++ x₁ ++ x₀).extractLsb' 0 w = x₀ ∧ (x₃ ++ x₂ ++ x₁ ++ x₀).extractLsb' w w = x₁ ∧
    (x₃ ++ x₂ ++ x₁ ++ x₀).extractLsb' (w + w) w = x₂ ∧ (x₃ ++ x₂ ++ x₁ ++ x₀).extractLsb' (w + w + w) w = x₃ := by
  refine ⟨BitVec.extractLsb'_append_eq_right, ?_, ?_, ?_⟩
  · rw [BitVec.extractLsb'_append_eq_of_le le_rfl, Nat.sub_self]
    exact BitVec.extractLsb'_append_eq_right
  · rw [BitVec.extractLsb'_append_eq_of_le (by omega), Nat.add_sub_cancel,
      BitVec.extractLsb'_append_eq_of_le le_rfl, Nat.sub_self]
    exact BitVec.extractLsb'_append_eq_right
  · rw [BitVec.extractLsb'_append_eq_of_le (by omega), Nat.add_sub_cancel,
      BitVec.extractLsb'_append_eq_of_le (by omega), Nat.add_sub_cancel]
    exact BitVec.extractLsb'_append_eq_left

/-- Slice `k` of a packed palette is the word of entry `k` (R100). -/
theorem packColours_extractLsb' (P : Vector Pixel 4) (k : Fin 4) :
    (packColours P).extractLsb' (32 * k.val) 32 = pixelWord P[k] := by
  obtain ⟨h0, h1, h2, h3⟩ := extractLsb'_append_four (pixelWord P[3]) (pixelWord P[2]) (pixelWord P[1]) (pixelWord P[0])
  fin_cases k
  · exact h0
  · exact h1
  · exact h2
  · exact h3

/-- The bytes of a pixel's word: R in the low byte, A in the high byte (R100). -/
theorem pixelWord_bytes (x : Pixel) :
    (pixelWord x).extractLsb' 0 8 = x.r ∧ (pixelWord x).extractLsb' 8 8 = x.g ∧
    (pixelWord x).extractLsb' 16 8 = x.b ∧ (pixelWord x).extractLsb' 24 8 = x.a :=
  extractLsb'_append_four x.a x.b x.g x.r

/-- A byte of slice `k` of a packed palette is that byte of the word of entry `k`. -/
theorem packColours_byte (P : Vector Pixel 4) (k : Fin 4) {j : Nat} (hj : j + 8 ≤ 32) :
    (packColours P).extractLsb' (32 * k.val + j) 8 = (pixelWord P[k]).extractLsb' j 8 := by
  rw [← packColours_extractLsb', extractLsb'_extractLsb' _ hj]

/-- The endpoints of a palette are `blk[15:0]` and `blk[31:16]`. -/
theorem paletteResult_eq (mode : PaletteMode) (blk : Block) :
    paletteResult mode blk = packColours (colorPalette (blk.extractLsb' 0 16) (blk.extractLsb' 16 16) mode) := by
  unfold paletteResult
  rw [le16_eq_extractLsb', le16_eq_extractLsb']

/-- Settles O29: each operation completes with `paletteResult`, whose slices are the words of the entries. -/
theorem paletteCommandResults : Obligations.PaletteCommandResults := by
  unfold Obligations.PaletteCommandResults
  intro mode blk dst stride s
  refine ⟨paletteResult mode blk, ⟨rfl, rfl, rfl⟩, ?_, fun k => ?_⟩
  · cases mode <;> rfl
  · obtain ⟨hr, hg, hb, ha⟩ := pixelWord_bytes
      (colorPalette (blk.extractLsb' 0 16) (blk.extractLsb' 16 16) mode)[k]
    rw [paletteResult_eq]
    exact ⟨(packColours_byte _ k (j := 0) (by decide)).trans hr, (packColours_byte _ k (by decide)).trans hg,
      (packColours_byte _ k (by decide)).trans hb, (packColours_byte _ k (by decide)).trans ha⟩

/-! ### The decodes -/

/-- What a decode command does, by the checks it passes (60_exceptions.md R151 to R154). -/
theorem exec_decode_result {i : Instr} {dst stride : Nat} {tile : Tile} {premul : Bool} {s : State}
    (hexec : exec i s = .next (decodeInto dst stride tile premul s)) :
    (stride < 16 → exec i s = .next (s.completed 0x02#8 0)) ∧
    (16 ≤ stride → dst + 3 * stride + 15 > 2 ^ s.params.aw - 1 → exec i s = .next (s.completed 0x03#8 0)) ∧
    (16 ≤ stride → dst + 3 * stride + 15 ≤ 2 ^ s.params.aw - 1 →
      ∃ t, exec i s = .next t ∧ DecodesTo s t dst stride tile (statusWord .ok premul)) := by
  refine ⟨fun hs => ?_, fun hs hr => ?_, fun hs hr => ⟨_, hexec, decodesTo_decodeInto tile premul hs hr⟩⟩
  · obtain ⟨-, h⟩ | ⟨hs', -⟩ | ⟨hs', -⟩ := decodeInto_cases dst stride tile premul s
    · exact hexec.trans (congrArg _ h)
    · omega
    · omega
  · obtain ⟨hs', -⟩ | ⟨-, -, h⟩ | ⟨-, hr', -⟩ := decodeInto_cases dst stride tile premul s
    · omega
    · exact hexec.trans (congrArg _ h)
    · omega

/-- Slices of the colour code word of a BC1 block are slices of `blk`, 32 bits up. -/
theorem colorIndex_le32 (blk : Block) (col row : Fin 4) :
    colorIndex (le32 blk 4) col row = blk.extractLsb' (32 + 2 * (4 * row.val + col.val)) 2 := by
  rw [colorIndex_eq_extractLsb', le32_eq_extractLsb', extractLsb'_extractLsb' _ (by omega)]

/-- The tile of a BC1 block on slices of `blk` (R97). -/
theorem bc1Tile_eq (mode : PaletteMode) (blk : Block) :
    bc1Tile mode blk = fun row col =>
      (colorPalette (blk.extractLsb' 0 16) (blk.extractLsb' 16 16) mode).get
        (blk.extractLsb' (32 + 2 * (4 * row.val + col.val)) 2).toFin := by
  funext row col
  unfold bc1Tile paletteEntry
  rw [le16_eq_extractLsb', le16_eq_extractLsb', colorIndex_le32]

theorem exec_decBc1 (blk : Block) (dst stride : Nat) (s : State) :
    exec (.decBc1 blk dst stride) s = .next (decodeInto dst stride (bc1Tile .bc1 blk) true s) := rfl

theorem exec_decBc1a (blk : Block) (dst stride : Nat) (s : State) :
    exec (.decBc1a blk dst stride) s = .next (decodeInto dst stride (bc1Tile .bc1a blk) true s) := rfl

/-- Settles O36: `exec_decode_result` for the tile of the strict palette. -/
theorem decBc1Result : Obligations.DecBc1Result := by
  unfold Obligations.DecBc1Result
  intro blk dst stride s
  rw [← bc1Tile_eq]
  exact ⟨rfl, exec_decode_result (exec_decBc1 blk dst stride s)⟩

/-- Settles O37: `exec_decode_result` for the tile of the BC1a palette. -/
theorem decBc1aResult : Obligations.DecBc1aResult := by
  unfold Obligations.DecBc1aResult
  intro blk dst stride s
  rw [← bc1Tile_eq]
  exact ⟨rfl, exec_decode_result (exec_decBc1a blk dst stride s)⟩

end Machine
end Sys2Proof
end

section
/-! SUPPORT. The alpha palette (spec 42_dxt5_alpha.md R120 to R122, R126): every interpolated entry is a blend of the
endpoints, and a blend moves towards the endpoint that gains weight. -/

namespace Sys2Proof
namespace Machine

/-! ### Blends in order -/

section BlendOrder
variable {m n d : Nat} {x y : Byte}

/-- A blend of ordered endpoints stands between them. -/
theorem blend_between_of_le (hd : 0 < d) (hw : m + n = d) (h : y ≤ x) : y ≤ blend m n d x y ∧ blend m n d x y ≤ x := by
  obtain ⟨hlow, hhigh⟩ := blend_between x y hd hw
  simp only [BitVec.le_def] at h ⊢
  rw [min_eq_right h] at hlow
  rw [max_eq_left h] at hhigh
  exact ⟨hlow, hhigh⟩

/-- Moving one unit of weight to the smaller endpoint does not raise a blend. -/
theorem blend_le_blend_of_le (hd : 0 < d) (hw : m + n + 1 = d) (h : y ≤ x) :
    blend m (n + 1) d x y ≤ blend (m + 1) n d x y := by
  rw [BitVec.le_def] at h ⊢
  rw [toNat_blend x y hd (by omega), toNat_blend x y hd (by omega)]
  apply Nat.div_le_div_right
  rw [Nat.succ_mul, Nat.succ_mul]
  omega

/-- A blend of equal endpoints is that endpoint. -/
theorem blend_self (hd : 0 < d) (hw : m + n = d) : blend m n d x x = x := by
  obtain ⟨hlow, hhigh⟩ := blend_between_of_le hd hw (BitVec.le_refl x)
  exact BitVec.le_antisymm hhigh hlow

end BlendOrder

/-! ### The eight entries -/

section Palette
variable {a0 a1 : Byte}

theorem alphaPalette_of_gt (h : a1 < a0) :
    alphaPalette a0 a1 = #v[a0, a1, blend 6 1 7 a0 a1, blend 5 2 7 a0 a1, blend 4 3 7 a0 a1, blend 3 4 7 a0 a1,
      blend 2 5 7 a0 a1, blend 1 6 7 a0 a1] :=
  if_pos h

theorem alphaPalette_of_le (h : a0 ≤ a1) :
    alphaPalette a0 a1 = #v[a0, a1, blend 4 1 5 a0 a1, blend 3 2 5 a0 a1, blend 2 3 5 a0 a1, blend 1 4 5 a0 a1, 0,
      255] :=
  if_neg (BitVec.not_lt.mpr h)

/-- The endpoints are the first two entries in either mode (R121, R122). -/
theorem alphaPalette_endpoints (a0 a1 : Byte) : (alphaPalette a0 a1)[0] = a0 ∧ (alphaPalette a0 a1)[1] = a1 := by
  by_cases h : a1 < a0
  · rw [alphaPalette_of_gt h]
    exact ⟨rfl, rfl⟩
  · rw [alphaPalette_of_le (BitVec.not_lt.mp h)]
    exact ⟨rfl, rfl⟩

/-- The interpolated entries in eight-point mode: the weight of `a1` rises by one seventh (R121). -/
theorem alphaPalette_get_of_gt (h : a1 < a0) (k : Fin 8) (hk : 2 ≤ k.val) :
    (alphaPalette a0 a1)[k] = blend (8 - k.val) (k.val - 1) 7 a0 a1 := by
  rw [alphaPalette_of_gt h]
  match k with
  | 2 | 3 | 4 | 5 | 6 | 7 => rfl

/-- The interpolated entries in six-point mode: the weight of `a1` rises by one fifth (R122). -/
theorem alphaPalette_get_of_le (h : a0 ≤ a1) (k : Fin 8) (hk : 2 ≤ k.val) (hk' : k.val ≤ 5) :
    (alphaPalette a0 a1)[k] = blend (6 - k.val) (k.val - 1) 5 a0 a1 := by
  rw [alphaPalette_of_le h]
  match k with
  | 2 | 3 | 4 | 5 => rfl

/-- The last two entries in six-point mode are the extremes (R122). -/
theorem alphaPalette_extremes (h : a0 ≤ a1) : (alphaPalette a0 a1)[6] = 0 ∧ (alphaPalette a0 a1)[7] = 255 := by
  rw [alphaPalette_of_le h]
  exact ⟨rfl, rfl⟩

theorem alphaPalette_toNat_of_gt (h : a1 < a0) (k : Fin 8) (hk : 2 ≤ k.val) :
    (alphaPalette a0 a1)[k].toNat = ((8 - k.val) * a0.toNat + (k.val - 1) * a1.toNat) / 7 := by
  rw [alphaPalette_get_of_gt h k hk, toNat_blend a0 a1 (by decide) (by omega)]

theorem alphaPalette_toNat_of_le (h : a0 ≤ a1) (k : Fin 8) (hk : 2 ≤ k.val) (hk' : k.val ≤ 5) :
    (alphaPalette a0 a1)[k].toNat = ((6 - k.val) * a0.toNat + (k.val - 1) * a1.toNat) / 5 := by
  rw [alphaPalette_get_of_le h k hk hk', toNat_blend a0 a1 (by decide) (by omega)]

end Palette

/-- Settles O32: the closed form of each mode, and its instances at the interpolated entries. -/
theorem alphaPaletteEntries : Obligations.AlphaPaletteEntries := by
  unfold Obligations.AlphaPaletteEntries
  intro a0 a1 A x y
  obtain ⟨h0, h1⟩ := alphaPalette_endpoints a0 a1
  refine ⟨h0, h1, fun hgt => ?_, fun hle => ?_⟩
  · have closed := alphaPalette_toNat_of_gt (BitVec.lt_def.mpr hgt)
    exact ⟨closed 2 (by decide), closed 3 (by decide), closed 4 (by decide), closed 5 (by decide),
      closed 6 (by decide), closed 7 (by decide), closed⟩
  · have hle : a0 ≤ a1 := BitVec.le_def.mpr hle
    have closed := alphaPalette_toNat_of_le hle
    obtain ⟨h6, h7⟩ := alphaPalette_extremes hle
    exact ⟨closed 2 (by decide) (by decide), closed 3 (by decide) (by decide), closed 4 (by decide) (by decide),
      closed 5 (by decide) (by decide), congrArg BitVec.toNat h6, congrArg BitVec.toNat h7, closed⟩

/-! ### The laws of the palette -/

/-- The entries fall from `a0` to `a1` in eight-point mode (R126). -/
theorem alphaPalette_falls {a0 a1 : Byte} (h : a1 < a0) :
    let A := alphaPalette a0 a1
    A[2] ≤ a0 ∧ A[3] ≤ A[2] ∧ A[4] ≤ A[3] ∧ A[5] ≤ A[4] ∧ A[6] ≤ A[5] ∧ A[7] ≤ A[6] ∧ a1 ≤ A[7] := by
  have hle : a1 ≤ a0 := BitVec.le_of_lt h
  have fall {m n : Nat} (hw : m + n + 1 = 7) : blend m (n + 1) 7 a0 a1 ≤ blend (m + 1) n 7 a0 a1 :=
    blend_le_blend_of_le (by decide) hw hle
  rw [alphaPalette_of_gt h]
  exact ⟨(blend_between_of_le (by decide) rfl hle).2, fall rfl, fall rfl, fall rfl, fall rfl, fall rfl,
    (blend_between_of_le (by decide) rfl hle).1⟩

/-- The interpolated entries rise from `a0` to `a1` in six-point mode: read from `a1` they fall (R126). -/
theorem alphaPalette_rises {a0 a1 : Byte} (h : a0 ≤ a1) :
    let A := alphaPalette a0 a1
    a0 ≤ A[2] ∧ A[2] ≤ A[3] ∧ A[3] ≤ A[4] ∧ A[4] ≤ A[5] ∧ A[5] ≤ a1 := by
  have rise {m n : Nat} (hw : m + n + 1 = 5) : blend m (n + 1) 5 a1 a0 ≤ blend (m + 1) n 5 a1 a0 :=
    blend_le_blend_of_le (by decide) hw h
  simp only [alphaPalette_of_le h, blend_swap a0 a1]
  exact ⟨(blend_between_of_le (by decide) rfl h).1, rise rfl, rise rfl, rise rfl,
    (blend_between_of_le (by decide) rfl h).2⟩

/-- Equal endpoints are in six-point mode, and every interpolated entry is that endpoint (R126). -/
theorem alphaPalette_self (a : Byte) (k : Fin 8) (hk : 2 ≤ k.val) (hk' : k.val ≤ 5) : (alphaPalette a a)[k] = a := by
  rw [alphaPalette_get_of_le (BitVec.le_refl a) k hk hk']
  exact blend_self (by decide) (by omega)

/-- Settles O33: the laws of the entries in each mode; the truncation example is evaluated. -/
theorem alphaPaletteLaws : Obligations.AlphaPaletteLaws := by
  unfold Obligations.AlphaPaletteLaws
  exact ⟨fun a0 a1 => ⟨alphaPalette_endpoints a0 a1, alphaPalette_extremes, alphaPalette_falls, alphaPalette_rises⟩,
    fun a => ⟨alphaPalette_self a 2 (by decide) (by decide), alphaPalette_self a 3 (by decide) (by decide),
      alphaPalette_self a 4 (by decide) (by decide), alphaPalette_self a 5 (by decide) (by decide)⟩,
    by decide⟩

end Machine
end Sys2Proof
end

section
/-! SUPPORT. The operation APAL (spec 42_dxt5_alpha.md R125): the bytes of `RES` are the entries of the palette. -/

namespace Sys2Proof
namespace Machine

section PackedPalette
variable (A : Vector Byte 8)

/-- `RES` holds 64 zero bits above the eight entries. -/
theorem packAlphas_eq_append :
    packAlphas A = 0#64 ++ (A[7] ++ A[6] ++ A[5] ++ A[4] ++ A[3] ++ A[2] ++ A[1] ++ A[0]) := by
  unfold packAlphas
  rw [BitVec.setWidth_eq_append (by decide)]
  rfl

theorem packAlphas_extractLsb'_high : (packAlphas A).extractLsb' 64 64 = 0 := by
  rw [packAlphas_eq_append]
  exact BitVec.extractLsb'_append_eq_left

/-- Byte `k` of a packed palette is entry `k`: the low byte of what stands above the `k` bytes below it. -/
theorem packAlphas_extractLsb' (k : Fin 8) : (packAlphas A).extractLsb' (8 * k.val) 8 = A[k] := by
  rw [packAlphas_eq_append, BitVec.extractLsb'_append_eq_of_add_le (by omega)]
  match k with
  | 0 => exact BitVec.extractLsb'_append_eq_right
  | 1 | 2 | 3 | 4 | 5 | 6 =>
    simp (disch := decide) only [BitVec.extractLsb'_append_eq_of_le]
    exact BitVec.extractLsb'_append_eq_right
  | 7 =>
    simp (disch := decide) only [BitVec.extractLsb'_append_eq_of_le]
    exact BitVec.extractLsb'_eq_self

end PackedPalette

theorem exec_apal (blk : Block) (dst stride : Nat) (s : State) :
    exec (.apal blk dst stride) s =
      .next (s.complete .ok false (packAlphas (alphaPalette (blockByte blk 0) (blockByte blk 1)))) := rfl

/-- Settles O34: the operation completes with the packed palette of the two low bytes of `blk`. -/
theorem apalResult : Obligations.ApalResult := by
  unfold Obligations.ApalResult
  intro blk dst stride s
  refine ⟨packAlphas (alphaPalette (blockByte blk 0) (blockByte blk 1)), rfl, ?_, packAlphas_extractLsb' _,
    packAlphas_extractLsb'_high _⟩
  rw [exec_apal, State.complete_eq_completed]
  rfl

end Machine
end Sys2Proof
end

section
/-! SUPPORT. The operation DEC_BC3 (spec 43_bc3.md R137, R138, R140), on slices of `blk`. -/

namespace Sys2Proof
namespace Machine

/-- Slices of the colour code word of a BC3 block are slices of `blk`, 96 bits up. -/
theorem colorIndex_le32_bc3 (blk : Block) (col row : Fin 4) :
    colorIndex (le32 blk 12) col row = blk.extractLsb' (96 + 2 * (4 * row.val + col.val)) 2 := by
  rw [colorIndex_eq_extractLsb', le32_eq_extractLsb', extractLsb'_extractLsb' _ (by omega)]

/-- Slices of the alpha code word of a BC3 block are slices of `blk`, 16 bits up. -/
theorem alphaIndex_le48 (blk : Block) (col row : Fin 4) :
    alphaIndex (le48 blk 2) col row = blk.extractLsb' (16 + 3 * (4 * row.val + col.val)) 3 := by
  rw [alphaIndex_eq_extractLsb', le48_eq_extractLsb', extractLsb'_extractLsb' _ (by omega)]

/-- The tile of a BC3 block on slices of `blk`: the colour code selects R, G and B, the alpha code selects A (R137). -/
theorem bc3Tile_eq (blk : Block) :
    bc3Tile blk = fun row col =>
      let x := (colorPalette (blk.extractLsb' 64 16) (blk.extractLsb' 80 16) .four).get
        (blk.extractLsb' (96 + 2 * (4 * row.val + col.val)) 2).toFin
      ⟨x.r, x.g, x.b, (alphaPalette (blk.extractLsb' 0 8) (blk.extractLsb' 8 8)).get
        (blk.extractLsb' (16 + 3 * (4 * row.val + col.val)) 3).toFin⟩ := by
  funext row col
  unfold bc3Tile paletteEntry alphaEntry blockByte
  rw [le16_eq_extractLsb', le16_eq_extractLsb', colorIndex_le32_bc3, alphaIndex_le48]

theorem exec_decBc3 (blk : Block) (dst stride : Nat) (s : State) :
    exec (.decBc3 blk dst stride) s = .next (decodeInto dst stride (bc3Tile blk) false s) := rfl

/-- Settles O38: `exec_decode_result` for the BC3 tile, whose pixels are not premultiplied. -/
theorem decBc3Result : Obligations.DecBc3Result := by
  unfold Obligations.DecBc3Result
  intro blk dst stride s
  rw [← bc3Tile_eq]
  exact ⟨rfl, exec_decode_result (exec_decBc3 blk dst stride s)⟩

end Machine
end Sys2Proof
end

section
/-! SUPPORT. Errors (spec 60_exceptions.md R150 to R154): the code of a command by its operands, and that a command with a
code other than 00 writes no byte of `M`. -/

namespace Sys2Proof
namespace Machine

/-- The decode class by the values of `op` (30_encoding.md R62). -/
theorem isDecode_iff_op (i : Instr) : i.isDecode = true ↔ i.op = 0x0 ∨ i.op = 0x1 ∨ i.op = 0x3 := by
  cases i <;> simp [Instr.isDecode, Instr.op]

theorem op_not_reserved_of_isDecode {i : Instr} (h : i.isDecode = true) : ¬(i.op = 0x2 ∨ 0x9 ≤ i.op) := by
  obtain hop | hop | hop := (isDecode_iff_op i).mp h <;> rw [hop] <;> decide

/-- A command that has a window passes every check. -/
theorem completionCode_of_commandWindow {p : Params} {i : Instr} {w : Window} (h : commandWindow p i = some w) :
    completionCode p i = .ok := by
  obtain ⟨hdec, hs, hr, -⟩ := commandWindow_eq_some.mp h
  have hchecks : decodeError p i.dst i.stride = none := (decodeError_eq_none _ _ _).mpr ⟨hs, hr⟩
  rw [completionCode, if_neg (op_not_reserved_of_isDecode hdec), if_pos hdec, hchecks]
  rfl

/-- The two bits of the completion code, the checks in their order (R154). -/
theorem completionCode_bits (p : Params) (i : Instr) :
    (completionCode p i).bits =
      if i.op = 0x2 ∨ 0x9 ≤ i.op then 0b01
      else if (i.op = 0x0 ∨ i.op = 0x1 ∨ i.op = 0x3) ∧ i.stride < 16 then 0b10
      else if (i.op = 0x0 ∨ i.op = 0x1 ∨ i.op = 0x3) ∧ i.dst + 3 * i.stride + 15 > 2 ^ p.aw - 1 then 0b11
      else 0b00 := by
  unfold completionCode
  simp only [← isDecode_iff_op]
  by_cases hop : i.op = 0x2 ∨ 0x9 ≤ i.op
  · rw [if_pos hop, if_pos hop]
    rfl
  rw [if_neg hop, if_neg hop]
  cases i.isDecode with
  | true =>
    simp only [true_and, if_true]
    unfold decodeError
    split_ifs <;> rfl
  | false => simp

/-- `STATUS.ERR` after a command is its completion code. -/
theorem statusErr_of_exec {i : Instr} {s t : State} (h : exec i s = .next t) :
    statusErr t.status = (completionCode s.params i).bits := by
  obtain ⟨m, r, hexec, -⟩ := exec_complete i s
  obtain rfl : t = (s.setMem m).complete (completionCode s.params i) (completionPremul s.params i) r := by
    simpa [h] using hexec
  rw [State.complete_status, statusErr_statusWord]

/-- What a command with an error does (R153): by `exec_complete` it completes with its code and `RES` 0, and by
`exec_cases` it has written nothing, since it has no window. -/
theorem exec_of_error {i : Instr} {s : State} (h : completionCode s.params i ≠ .ok) :
    exec i s = .next (s.completed (statusWord (completionCode s.params i) false) 0) := by
  obtain ⟨m, r, hexec, hres⟩ := exec_complete i s
  have hpremul : completionPremul s.params i = false := by simp [completionPremul, h]
  have hmem : m = s.mem := by
    obtain ⟨e, b, r', m', hexec', ⟨-, hm'⟩ | ⟨w, -, hw, -⟩⟩ := exec_cases i s
    · rw [hexec', Host.Outcome.next.injEq] at hexec
      exact (congrArg State.mem hexec).symm.trans hm'
    · exact absurd (completionCode_of_commandWindow hw) h
  rw [hexec, hpremul, hres (.inr h), hmem]
  rfl

/-- Settles O41: `STATUS.ERR` is the completion code, which makes the checks in their order. -/
theorem errorPriority : Obligations.ErrorPriority := by
  unfold Obligations.ErrorPriority
  intro i s t h
  rw [statusErr_of_exec h, completionCode_bits]

/-- Settles O42: a non-zero `STATUS.ERR` is a completion code other than 00, and `exec_of_error` is all the command did. -/
theorem errorEffect : Obligations.ErrorEffect := by
  unfold Obligations.ErrorEffect
  intro i s t h herr
  have hcode : completionCode s.params i ≠ .ok := fun hok => herr <| by
    rw [statusErr_of_exec h, hok]
    rfl
  obtain rfl : t = s.completed (statusWord (completionCode s.params i) false) 0 := by
    simpa [h] using exec_of_error hcode
  refine ⟨?_, State.completed_mem .., State.completed_busy ..⟩
  rw [State.completed_status, statusErr_statusWord]
  rfl

/-- Settles O40: a reserved `op` is the error ILLEGAL_OP, whatever the operands. -/
theorem reservedOpsComplete : Obligations.ReservedOpsComplete := by
  unfold Obligations.ReservedOpsComplete
  intro i s hop
  have hcode : completionCode s.params i = .illegalOp := (completionCode_eq_illegalOp _ _).mpr hop
  have herr : completionCode s.params i ≠ .ok := by
    rw [hcode]
    decide
  rw [exec_of_error herr, hcode]
  rfl

end Machine
end Sys2Proof
end

section
/-! SUPPORT. A command presented while `BUSY = 1`, and two commands one after the other (spec 70_reset_and_hazards.md R174,
R177; 20_memory.md R41, 10_state.md R29). -/

namespace Sys2Proof
namespace Machine

theorem hostPresent_of_busy {s : State} (cmd : Nat) (h : s.busy = 1) : hostPresent cmd s = .refused .commandWhileBusy :=
  if_pos h

theorem hostCommand_of_busy {s : State} (cmd : Nat) (h : s.busy = 1) : hostCommand cmd s = .refused .commandWhileBusy :=
  if_pos h

/-- Settles O19: both ways of presenting test `BUSY` first. -/
theorem commandWhileBusyRefused : Obligations.CommandWhileBusyRefused := by
  unfold Obligations.CommandWhileBusyRefused
  exact fun s cmd hb => ⟨hostPresent_of_busy cmd hb, hostCommand_of_busy cmd hb⟩

@[simp] theorem State.resetWith_mem (p : Params) (n : Nat) : (State.resetWith p n).mem = [] := rfl

/-- What a command writes is what it leaves of a memory where nothing was written yet. -/
theorem valueWritten_of_exec {p : Params} {i : Instr} {t : State} (h : exec i (State.resetWith p 0) = .next t) (a : Nat) :
    valueWritten p i a = Memory.read t.mem a := by
  rw [valueWritten, h]

/-- A tile write puts its own bytes over the memory before. -/
theorem read_tileWrite_eq_or (dst : Nat) {stride : Nat} (tile : Tile) (hs : 16 ≤ stride) (m : Memory) (a : Nat) :
    Memory.read (tileWrite dst stride tile m) a =
      (Memory.read (tileWrite dst stride tile []) a).or (Memory.read m a) := by
  cases h : Window.contains ⟨dst, stride⟩ a with
  | true =>
    obtain ⟨v, -, hv⟩ := read_tileWrite_of_inside tile hs h
    rw [hv m, hv [], Option.some_or]
  | false => rw [read_tileWrite_of_outside tile m h, read_tileWrite_of_outside tile [] h, Memory.read_nil, Option.none_or]

/-- A command leaves `STATUS` and `RES` as it leaves them from reset (10_state.md R29), and puts the bytes it writes over
the memory before. -/
theorem exec_overwrites (i : Instr) (s : State) :
    ∃ t v, exec i s = .next t ∧ exec i (State.resetWith s.params 0) = .next v ∧ t.status = v.status ∧ t.res = v.res ∧
      ∀ a, Memory.read t.mem a = (valueWritten s.params i a).or (Memory.read s.mem a) := by
  obtain ⟨e, b, r, hplain, hdecode⟩ := exec_spec s.params i
  cases hw : commandWindow s.params i with
  | none =>
    have hreset := hplain (State.resetWith s.params 0) rfl hw
    refine ⟨_, _, hplain s rfl hw, hreset, rfl, rfl, fun a => ?_⟩
    simp only [valueWritten_of_exec hreset, State.complete_mem, State.resetWith_mem, Memory.read_nil, Option.none_or]
  | some w =>
    obtain ⟨tile, -, hexec⟩ := hdecode w hw
    obtain ⟨hs, -⟩ := commandWindow_bounds hw
    have hreset := hexec (State.resetWith s.params 0) rfl
    refine ⟨_, _, hexec s rfl, hreset, ?_, ?_, fun a => ?_⟩
    · simp only [State.complete_status]
    · simp only [State.complete_res]
    · simp only [valueWritten_of_exec hreset, State.complete_mem, State.setMem_mem, State.resetWith_mem]
      exact read_tileWrite_eq_or w.dst tile hs s.mem a

/-- Settles O53: `exec_overwrites` for each of the two commands; the first leaves the parameters as they are. -/
theorem laterDecodeOverwrites : Obligations.LaterDecodeOverwrites := by
  unfold Obligations.LaterDecodeOverwrites
  intro i j s
  obtain ⟨t, -, ht, -, -, -, hmem⟩ := exec_overwrites i s
  obtain ⟨u, v, hu, hv, hstatus, hres, hmem'⟩ := exec_overwrites j t
  obtain ⟨-, -, hparams, -⟩ := exec_next_of_eq ht
  rw [hparams] at hv hmem'
  refine ⟨t, u, v, ht, hu, fun a => ?_, hv, hstatus, hres⟩
  rw [hmem' a, hmem a, Option.or_assoc]

end Machine
end Sys2Proof
end

section
/-! SUPPORT. Decoding and encoding are inverse to each other (spec 30_encoding.md R60 to R62, R69, R70). -/

namespace Sys2Proof
namespace Machine

/-! ### The fields of an encoded command -/

theorem cmdOp_encode (p : Params) (i : Instr) : cmdOp (encode p i) = i.op :=
  BitVec.eq_of_toNat_eq (by rw [cmdOp, BitVec.toNat_ofNat, encode_mod])

theorem cmdBlk_encode (p : Params) (i : Instr) : cmdBlk (encode p i) = i.blk :=
  BitVec.eq_of_toNat_eq <| by
    rw [cmdBlk, BitVec.toNat_ofNat, encode_div_op, Nat.add_mul_mod_self_left, Nat.mod_eq_of_lt i.blk.isLt]

theorem cmdDst_encode {p : Params} {i : Instr} (hd : i.dst < 2 ^ p.aw) : cmdDst p (encode p i) = i.dst := by
  rw [cmdDst, encode_div_blk, Nat.add_mul_mod_self_left, Nat.mod_eq_of_lt hd]

theorem cmdStride_encode {p : Params} {i : Instr} (h : i.WellFormed p) : cmdStride p (encode p i) = i.stride := by
  obtain ⟨hd, hs⟩ := h
  rw [cmdStride, encode_div_dst hd, Nat.mod_eq_of_lt hs]

/-- Every command is the row of its own `op` (R62). -/
theorem opcodeMap_get_self (i : Instr) : opcodeMap.get i.op.toFin i.blk i.dst i.stride = i :=
  match i with
  | .decBc1 b d s => Laws.RowOfOp.decBc1 b d s
  | .decBc1a b d s => Laws.RowOfOp.decBc1a b d s
  | .reserved2 b d s => Laws.RowOfOp.reserved2 b d s
  | .decBc3 b d s => Laws.RowOfOp.decBc3 b d s
  | .expand565 b d s => Laws.RowOfOp.expand565 b d s
  | .cpalBc1 b d s => Laws.RowOfOp.cpalBc1 b d s
  | .cpalBc1a b d s => Laws.RowOfOp.cpalBc1a b d s
  | .cpal4c b d s => Laws.RowOfOp.cpal4c b d s
  | .apal b d s => Laws.RowOfOp.apal b d s
  | .reserved9 b d s => Laws.RowOfOp.reserved9 b d s
  | .reservedA b d s => Laws.RowOfOp.reservedA b d s
  | .reservedB b d s => Laws.RowOfOp.reservedB b d s
  | .reservedC b d s => Laws.RowOfOp.reservedC b d s
  | .reservedD b d s => Laws.RowOfOp.reservedD b d s
  | .reservedE b d s => Laws.RowOfOp.reservedE b d s
  | .reservedF b d s => Laws.RowOfOp.reservedF b d s

/-- Settles O7: the decoder reads the four fields back, and they select the command itself. -/
theorem decodeOfEncode : Obligations.DecodeOfEncode := by
  unfold Obligations.DecodeOfEncode
  intro p i h
  rw [decode_of_lt (encode_lt h), cmdOp_encode, cmdBlk_encode, cmdDst_encode h.1, cmdStride_encode h,
    opcodeMap_get_self]

/-! ### The fields of a decoded command -/

section Row
variable (k : Fin 16) (b : Block) (d s : Nat)
@[simp] theorem opcodeMap_get_blk : (opcodeMap.get k b d s).blk = b := by fin_cases k <;> rfl
@[simp] theorem opcodeMap_get_dst : (opcodeMap.get k b d s).dst = d := by fin_cases k <;> rfl
@[simp] theorem opcodeMap_get_stride : (opcodeMap.get k b d s).stride = s := by fin_cases k <;> rfl
end Row

/-- A number that decodes fits `CMD`, and its command is the row of its `op`, given its other three fields. -/
theorem decode_eq_ok {p : Params} {w : Nat} {i : Instr} (h : decode p w = .ok i) :
    w < 2 ^ p.cmdBits ∧ opcodeMap.get (cmdOp w).toFin (cmdBlk w) (cmdDst p w) (cmdStride p w) = i := by
  by_cases hw : w < 2 ^ p.cmdBits
  · exact ⟨hw, Except.ok.inj ((decode_of_lt hw).symm.trans h)⟩
  · rw [decode, if_neg hw] at h
    cases h

/-- The top field of a number that fits `CMD` has nothing above it. -/
theorem cmdStride_of_lt {p : Params} {w : Nat} (hw : w < 2 ^ p.cmdBits) : cmdStride p w = w / 2 ^ (132 + p.aw) := by
  refine Nat.mod_eq_of_lt ?_
  rwa [Nat.div_lt_iff_lt_mul (Nat.two_pow_pos _), mul_comm, ← pow_add]

/-- A number that fits `CMD` is put together again from its four fields. -/
theorem cmd_fields_eq {p : Params} {w : Nat} (hw : w < 2 ^ p.cmdBits) :
    (cmdOp w).toNat + 2 ^ 4 * ((cmdBlk w).toNat + 2 ^ 128 * (cmdDst p w + 2 ^ p.aw * cmdStride p w)) = w := by
  have hblk : w / 2 ^ 4 / 2 ^ 128 = w / 2 ^ 132 := Nat.div_div_eq_div_mul ..
  rw [cmdStride_of_lt hw, pow_add, ← Nat.div_div_eq_div_mul, cmdDst, Nat.mod_add_div, cmdBlk, BitVec.toNat_ofNat,
    ← hblk, Nat.mod_add_div, cmdOp, BitVec.toNat_ofNat, Nat.mod_add_div]

/-- Settles O8: the two fields of free width are remainders, and the four fields make up the number. -/
theorem encodeOfDecode : Obligations.EncodeOfDecode := by
  unfold Obligations.EncodeOfDecode
  intro p w i h
  obtain ⟨hw, rfl⟩ := decode_eq_ok h
  refine ⟨⟨?_, ?_⟩, ?_⟩
  · rw [opcodeMap_get_dst]
    exact Nat.mod_lt _ (Nat.two_pow_pos _)
  · rw [opcodeMap_get_stride]
    exact Nat.mod_lt _ (Nat.two_pow_pos _)
  · rw [encode_eq, opcodeMap_get_op, opcodeMap_get_blk, opcodeMap_get_dst, opcodeMap_get_stride]
    exact cmd_fields_eq hw

/-- Settles O11: the decoder tests the length of `CMD` first. -/
theorem tooWideIsRejected : Obligations.TooWideIsRejected := by
  unfold Obligations.TooWideIsRejected
  exact fun p w hw => if_neg (Nat.not_lt.mpr hw)

/-- Settles O12: the six words are evaluated. -/
theorem sampleWordsDecode : Obligations.SampleWordsDecode := by
  unfold Obligations.SampleWordsDecode
  exact ⟨rfl, rfl, rfl, rfl, rfl, rfl⟩

/-! ### RAWCMD and the immediate form of EXPAND565 -/

/-- Bit `j` of an assembled block is bit `j mod 8` of byte `j div 8` (R70); a byte not listed is 0. -/
theorem getLsbD_blockOf (l : List Byte) {j : Nat} (hj : j < 128) :
    (blockOf l).getLsbD j = (l.getD (j / 8) 0).getLsbD (j % 8) := by
  induction l generalizing j with
  | nil => simp [blockOf]
  | cons b l ih =>
    have hcons : (blockOf (b :: l)).getLsbD j = (!decide (j < 8) && (blockOf l).getLsbD (j - 8) || b.getLsbD j) := by
      rw [blockOf, BitVec.getLsbD_or, BitVec.getLsbD_shiftLeft, BitVec.getLsbD_setWidth]
      simp only [hj, decide_true, Bool.true_and]
    rw [hcons]
    by_cases hlow : j < 8
    · simp [hlow, Nat.div_eq_of_lt hlow, Nat.mod_eq_of_lt hlow]
    · obtain ⟨n, rfl⟩ := Nat.exists_eq_add_of_le' (Nat.le_of_not_lt hlow)
      rw [Nat.add_div_right _ (by decide), Nat.add_mod_right, List.getD_cons_succ, Nat.add_sub_cancel, ih (by omega)]
      simp

/-- The bytes of a block, as many as hold all that is not 0 in it, assemble to the block. -/
theorem blockOf_bytes (blk : Block) {n : Nat} (h : ∀ j, 8 * n ≤ j → blk.getLsbD j = false) :
    blockOf ((List.range n).map fun k => blk.extractLsb' (8 * k) 8) = blk := by
  apply BitVec.eq_of_getLsbD_eq
  intro j hj
  rw [getLsbD_blockOf _ hj]
  by_cases hn : j / 8 < n
  · simp [List.getD_eq_getElem?_getD, hn, Nat.mod_lt, Nat.div_add_mod]
  · rw [List.getD_eq_default _ _ (by simpa using hn), h j (by omega)]
    exact BitVec.getLsbD_zero

/-- The two bytes of a 16-bit immediate are the low bytes of its block (R72). -/
theorem blockOf_immBytes {c : Nat} (hc : c ≤ 0xFFFF) : blockOf (immBytes c) = BitVec.ofNat 128 c := by
  have hlow : (BitVec.ofNat 128 c).extractLsb' 0 8 = BitVec.ofNat 8 c := by
    apply BitVec.eq_of_toNat_eq
    rw [BitVec.extractLsb'_toNat, BitVec.toNat_ofNat, BitVec.toNat_ofNat, Nat.shiftRight_eq_div_pow]
    omega
  have hhigh : (BitVec.ofNat 128 c).extractLsb' 8 8 = BitVec.ofNat 8 (c / 256) := by
    apply BitVec.eq_of_toNat_eq
    rw [BitVec.extractLsb'_toNat, BitVec.toNat_ofNat, BitVec.toNat_ofNat, Nat.shiftRight_eq_div_pow]
    omega
  have hbytes : immBytes c = (List.range 2).map fun k => (BitVec.ofNat 128 c).extractLsb' (8 * k) 8 :=
    congrArg₂ (fun x y => [x, y]) hlow.symm hhigh.symm
  rw [hbytes]
  refine blockOf_bytes _ fun j hj => ?_
  rw [BitVec.getLsbD_ofNat, Nat.testBit_lt_two_pow, Bool.and_false]
  calc c < 2 ^ 16 := by omega
    _ ≤ 2 ^ j := Nat.pow_le_pow_right (by decide) hj

/-- A line whose expansion is a well-formed command assembles to its encoding. -/
theorem assemble_eq_some {p : Params} {l l' : AsmLine} {i : Instr} (hl : expandPseudo l = some l')
    (hi : lineInstr l' = some i) (hwf : i.WellFormed p) : assemble p l = some (encode p i) := by
  have hline : (expandPseudo l).bind lineInstr = some i := by rw [hl, Option.bind_some, hi]
  simp only [assemble, asmInstr, hline, if_pos hwf, Option.map_some]

/-- The RAWCMD line of a command's own fields is that command. -/
theorem lineInstr_rawcmd (i : Instr) :
    lineInstr ⟨.rawcmd, [.num i.op.toNat, .num i.dst, .num i.stride,
      .block ((List.range 16).map fun k => i.blk.extractLsb' (8 * k) 8)]⟩ = some i := by
  have hblock : blockUpTo 16 ((List.range 16).map fun k => i.blk.extractLsb' (8 * k) 8) = some i.blk := by
    rw [blockUpTo, if_pos (by simp), blockOf_bytes _ fun j hj => BitVec.getLsbD_of_ge _ _ hj]
  simp only [lineInstr, dif_pos i.op.isLt, hblock, Option.map_some]
  exact congrArg some (opcodeMap_get_self i)

/-- Settles O56: the sixteen bytes assemble to `blk`, the two bytes of an immediate to its value. -/
theorem rawcmdSpellsAnyCommand : Obligations.RawcmdSpellsAnyCommand := by
  unfold Obligations.RawcmdSpellsAnyCommand
  refine ⟨fun p i hwf => assemble_eq_some rfl (lineInstr_rawcmd i) hwf, fun p c hc => ?_⟩
  have hline : lineInstr ⟨.expand565, [.block (immBytes c)]⟩ = some (.expand565 (BitVec.ofNat 128 c) 0 0) :=
    congrArg (fun b => some (Instr.expand565 b 0 0)) (blockOf_immBytes hc)
  exact assemble_eq_some (if_pos hc) hline ⟨Nat.two_pow_pos _, Nat.two_pow_pos _⟩

end Machine
end Sys2Proof
end

section
/-! SUPPORT. What every step keeps: the invariant of the machine (spec 10_state.md R24, R27, 30_encoding.md R60), AW, SW and
the number of units (00_scope.md R7). One lemma per update of State, then one per host event. -/

namespace Sys2Proof
namespace Machine

/-- The part of the invariant that speaks of `M`: canonical, every address below `2^AW` (R27). -/
def MemOk (p : Params) (m : Memory) : Prop := Memory.wf m ∧ ∀ c ∈ m, c.1 < p.memSize

/-- The part of the invariant that speaks of the units not addressed. -/
def UnitsOk (p : Params) (l : List UnitRegs) : Prop := ∀ u ∈ l, UnitOk p u

/-- An address of a command's window is one of `M` (20_memory.md R44). -/
theorem InCommandWindow.lt_memSize {p : Params} {i : Instr} {a : Nat} (h : InCommandWindow p i a) : a < p.memSize := by
  obtain ⟨w, hw, ha⟩ := h
  obtain ⟨-, hlt⟩ := commandWindow_bounds hw
  exact hlt a ha

/-- A `STATUS` of 0 is code OK, `PREMUL` 0 and reserved bits 0 (10_state.md R31). -/
theorem status_zero_fields :
    statusErr 0 = ErrCode.ok.bits ∧ statusPremul 0 = false ∧ statusReserved 0 = 0 := by decide

theorem statusReserved_zero : statusReserved 0 = 0 := status_zero_fields.2.2

theorem inFlightOk_none (p : Params) : InFlightOk p none := fun _ h => by cases h

/-! ### `M` -/

section MemOk
variable {p : Params} {m : Memory} (h : MemOk p m)
include h

theorem MemOk.write {a : Nat} (ha : a < p.memSize) (v : Byte) : MemOk p (Memory.write m a v) := by
  obtain ⟨hwf, hrange⟩ := h
  refine ⟨Memory.wf_write hwf a v, fun c hc => ?_⟩
  obtain rfl | hc := Memory.mem_write hc
  · exact ha
  · exact hrange c hc

theorem MemOk.keepBytes (before : Memory) {l : List Nat} (hl : ∀ a ∈ l, a < p.memSize) :
    MemOk p (keepBytes before l m) := by
  obtain ⟨hwf, hrange⟩ := h
  exact ⟨wf_keepBytes before hwf l, fun c hc => (mem_keepBytes hc).elim (hl c.1) (hrange c)⟩

theorem MemOk.spoilBytes (draw : Nat) {l : List Nat} (hl : ∀ a ∈ l, a < p.memSize) : MemOk p (spoilBytes draw l m) := by
  obtain ⟨hwf, hrange⟩ := h
  exact ⟨wf_spoilBytes draw hwf l, fun c hc => (mem_spoilBytes hc).elim (hl c.1) (hrange c)⟩

end MemOk

/-! ### The units -/

/-- An announcement changes no field of a unit that the invariant speaks of. -/
theorem UnitsOk.announceTo {p : Params} {l : List UnitRegs} (h : UnitsOk p l) (written : List Nat) :
    UnitsOk p (announceTo written l) := by
  intro u hu
  obtain ⟨v, hv, rfl⟩ := List.mem_map.mp hu
  have hok := h v hv
  split
  · exact hok
  · exact hok

/-! ### The updates of State -/

section Updates
variable {s : State} (h : Inv s)
include h

theorem Inv.memOk : MemOk s.params s.mem := ⟨h.memory, h.range⟩

theorem Inv.unit : UnitOk s.params s.unit := ⟨h.reserved, h.command⟩

theorem Inv.setMem {m : Memory} (hm : MemOk s.params m) : Inv (s.setMem m) :=
  ⟨h.params, hm.1, hm.2, h.reserved, h.command, h.units⟩

theorem Inv.setInputs (l : List HostEvent) : Inv (s.setInputs l) :=
  ⟨h.params, h.memory, h.range, h.reserved, h.command, h.units⟩

theorem Inv.setBus (v : BitVec 128) : Inv (s.setBus v) :=
  ⟨h.params, h.memory, h.range, h.reserved, h.command, h.units⟩

theorem Inv.complete (e : ErrCode) (b : Bool) (r : BitVec 128) : Inv (s.complete e b r) :=
  ⟨h.params, h.memory, h.range, statusReserved_statusWord e b, inFlightOk_none _, h.units⟩

theorem Inv.clearRegs : Inv s.clearRegs :=
  ⟨h.params, h.memory, h.range, statusReserved_zero, inFlightOk_none _, h.units⟩

theorem Inv.accept {i : Instr} (hi : i.WellFormed s.params) : Inv (s.accept i) :=
  ⟨h.params, h.memory, h.range, h.reserved, fun _ hj => Option.some.inj hj ▸ hi, h.units⟩

theorem Inv.announce (l : List Nat) : Inv (s.announce l) :=
  ⟨h.params, h.memory, h.range, h.reserved, h.command, UnitsOk.announceTo h.units l⟩

theorem Inv.swap {k : Nat} {u : UnitRegs} (hu : s.others[k]? = some u) : Inv (s.swap k u) := by
  obtain ⟨hreserved, hcommand⟩ := h.units u (List.mem_of_getElem? hu)
  refine ⟨h.params, h.memory, h.range, hreserved, hcommand, fun v hv => ?_⟩
  obtain hv | rfl := List.mem_or_eq_of_mem_set hv
  · exact h.units v hv
  · exact h.unit

/-- A reset spoils only bytes of a command's window, which are bytes of `M`. -/
theorem Inv.spoilWindow {i : Instr} {w : Window} (hw : commandWindow s.params i = some w) : Inv (s.spoilWindow w) := by
  have hm : MemOk s.params (spoilBytes s.draws w.addresses s.mem) :=
    h.memOk.spoilBytes s.draws fun a ha =>
      InCommandWindow.lt_memSize ⟨w, hw, (Window.mem_addresses w a).mp ha⟩
  have hu : UnitsOk s.params (announceTo w.addresses s.others) := UnitsOk.announceTo h.units w.addresses
  constructor
  · rw [State.spoilWindow_params]
    exact h.params
  · rw [State.spoilWindow_mem]
    exact hm.1
  · rw [State.spoilWindow_mem, State.spoilWindow_params]
    exact hm.2
  · rw [State.spoilWindow_status]
    exact h.reserved
  · rw [State.spoilWindow_params, State.spoilWindow_inFlight]
    exact h.command
  · rw [State.spoilWindow_params, State.spoilWindow_others]
    exact hu

/-- Settling a race writes only bytes of the command's window. -/
theorem Inv.settle {i : Instr} {s' : State} (hp : s'.params = s.params) : Inv (s.settle i s') := by
  obtain ⟨-, hsame⟩ | hkept := s.settle_cases s' i
  · rw [hsame]
    exact h
  · rw [hkept]
    have hm : MemOk s.params (keepBytes s'.mem (keptBytes s' i) s.mem) := by
      refine h.memOk.keepBytes s'.mem fun a ha => ?_
      obtain ⟨⟨hin, -⟩, -⟩ := mem_keptBytes.mp ha
      exact hp ▸ hin.lt_memSize
    exact ⟨h.params, hm.1, hm.2, h.reserved, h.command, h.units⟩

/-- A command keeps the invariant: it writes only into its window, which lies in `M`. -/
theorem Inv.exec {i : Instr} {t : State} (ht : exec i s = .next t) : Inv t := by
  obtain ⟨e, b, r, m, hexec, hwf, hmem, -⟩ := exec_memory i s
  obtain rfl : (s.setMem m).complete e b r = t := by simpa [hexec] using ht
  refine (h.setMem ⟨hwf h.memory, fun c hc => ?_⟩).complete e b r
  exact (hmem c hc).elim InCommandWindow.lt_memSize (h.range c)

end Updates

/-! ### The host events -/

/-- Every event of the host keeps the invariant. -/
theorem Inv.hostEvent {s t : State} {e : HostEvent} (h : Inv s) (ht : hostEvent e s = .next t) : Inv t := by
  cases e with
  | command cmd =>
    obtain ⟨-, i, u, -, hu, rfl⟩ := hostCommand_next ht
    exact (h.exec hu).announce _
  | present cmd =>
    obtain ⟨-, i, hi, rfl⟩ := hostPresent_next ht
    exact h.accept (encodeOfDecode _ _ _ hi).1
  | await =>
    obtain ⟨-, rfl⟩ | ⟨i, u, -, hu, rfl⟩ := hostAwait_next ht
    · exact h
    · obtain ⟨-, -, hp, -⟩ := exec_next_of_eq hu
      exact ((h.exec hu).settle hp.symm).announce _
  | readM a =>
    obtain ⟨-, -, rfl⟩ := hostReadM_next ht
    exact h.setBus _
  | writeM a v =>
    obtain ⟨ha, -, rfl⟩ := hostWriteM_next ht
    exact h.setMem (h.memOk.write ha v)
  | readReg r =>
    obtain rfl := hostReadReg_next ht
    exact h.setBus _
  | writeReg r v =>
    obtain rfl := hostWriteReg_next r v ht
    exact h
  | reset =>
    obtain ⟨-, rfl⟩ | ⟨w, hw, rfl⟩ := hostReset_next ht
    · exact h.clearRegs
    · obtain ⟨i, -, hw⟩ := Option.bind_eq_some_iff.mp hw
      exact h.clearRegs.spoilWindow hw
  | select k =>
    obtain ⟨u, hu, rfl⟩ := hostSelect_next ht
    exact h.swap hu

/-- Settles O5: one lemma per update of State, one inversion per host event. -/
theorem stepKeepsInvariant : Obligations.StepKeepsInvariant := by
  unfold Obligations.StepKeepsInvariant
  intro s t h ht
  cases hin : s.inputs with
  | nil =>
    obtain rfl : s = t := by simpa [step_of_no_inputs hin] using ht
    exact h
  | cons e rest =>
    rw [step_of_inputs hin] at ht
    exact (h.setInputs rest).hostEvent ht

/-! ### The configuration -/

/-- The parameters and the number of units of `t` are those of `s`. -/
def SameConfiguration (s t : State) : Prop := t.params = s.params ∧ t.others.length = s.others.length

theorem sameConfiguration_of_exec {i : Instr} {s t : State} (h : exec i s = .next t) : SameConfiguration s t := by
  obtain ⟨-, -, hp, ho, -⟩ := exec_next_of_eq h
  exact ⟨hp, congrArg _ ho⟩

theorem sameConfiguration_of_hostEvent {e : HostEvent} {s t : State} (h : hostEvent e s = .next t) :
    SameConfiguration s t := by
  cases e with
  | command cmd =>
    obtain ⟨-, i, u, -, hu, rfl⟩ := hostCommand_next h
    obtain ⟨hp, ho⟩ := sameConfiguration_of_exec hu
    exact ⟨hp, by rw [State.announce_others, announceTo_length, ho]⟩
  | present cmd =>
    obtain ⟨-, i, -, rfl⟩ := hostPresent_next h
    exact ⟨rfl, rfl⟩
  | await =>
    obtain ⟨-, rfl⟩ | ⟨i, u, -, hu, rfl⟩ := hostAwait_next h
    · exact ⟨rfl, rfl⟩
    · obtain ⟨hp, ho⟩ := sameConfiguration_of_exec hu
      refine ⟨?_, ?_⟩
      · rw [State.announce_params, State.settle_params, hp]
      · rw [State.announce_others, announceTo_length, State.settle_others, ho]
  | readM a =>
    obtain ⟨-, -, rfl⟩ := hostReadM_next h
    exact ⟨rfl, rfl⟩
  | writeM a v =>
    obtain ⟨-, -, rfl⟩ := hostWriteM_next h
    exact ⟨rfl, rfl⟩
  | readReg r =>
    obtain rfl := hostReadReg_next h
    exact ⟨rfl, rfl⟩
  | writeReg r v =>
    obtain rfl := hostWriteReg_next r v h
    exact ⟨rfl, rfl⟩
  | reset =>
    obtain ⟨-, rfl⟩ | ⟨w, -, rfl⟩ := hostReset_next h
    · exact ⟨rfl, rfl⟩
    · refine ⟨?_, ?_⟩
      · rw [State.spoilWindow_params, State.clearRegs_params]
      · rw [State.spoilWindow_others, announceTo_length, State.clearRegs_others]
  | select k =>
    obtain ⟨u, -, rfl⟩ := hostSelect_next h
    exact ⟨rfl, by rw [State.swap_others, List.length_set]⟩

/-- Settles O6: a case per host event. -/
theorem stepKeepsConfiguration : Obligations.StepKeepsConfiguration := by
  unfold Obligations.StepKeepsConfiguration
  intro s t h
  cases hin : s.inputs with
  | nil =>
    obtain rfl : s = t := by simpa [step_of_no_inputs hin] using h
    exact ⟨rfl, rfl⟩
  | cons e rest =>
    rw [step_of_inputs hin] at h
    exact (sameConfiguration_of_hostEvent h : SameConfiguration (s.setInputs rest) t)

/-! ### The state after reset -/

/-- The registers of every unit are 0 at reset, and no byte of `M` is listed: each part of the invariant holds of them. -/
theorem inv_resetWith {p : Params} (hp : p.Legal) (n : Nat) : Inv (State.resetWith p n) where
  params := hp
  memory := List.Pairwise.nil
  range _ hc := absurd hc List.not_mem_nil
  reserved := statusReserved_zero
  command := inFlightOk_none p
  units u hu := by
    obtain rfl := List.eq_of_mem_replicate hu
    exact ⟨statusReserved_zero, inFlightOk_none p⟩

/-- Settles O4: `inv_resetWith`, and the parameters of the vectors are legal. -/
theorem invariantHoldsAfterReset : Obligations.InvariantHoldsAfterReset := by
  unfold Obligations.InvariantHoldsAfterReset
  exact ⟨fun _ n hp => inv_resetWith hp n, inv_resetWith (by decide) 0⟩

/-- Settles O3: each register is its literal reset value, and every further unit is a copy of one. -/
theorem resetStateRegisters : Obligations.ResetStateRegisters := by
  unfold Obligations.ResetStateRegisters
  intro p n
  obtain ⟨herr, hpremul, hreserved⟩ := status_zero_fields
  refine ⟨herr, hpremul, hreserved, rfl, rfl, fun u hu => ?_, List.length_replicate, fun a => Memory.read_nil a⟩
  obtain rfl := List.eq_of_mem_replicate hu
  exact ⟨rfl, rfl, rfl⟩

end Machine
end Sys2Proof
end

section
/-! SUPPORT. Reset, the handshake and the commands as steps (spec 70_reset_and_hazards.md R170 to R174, 00_scope.md R4). -/

namespace Sys2Proof
namespace Machine

/-! ### Reset -/

/-- A reset of a unit with no window in flight clears its registers. -/
theorem hostReset_of_no_window {s : State} (h : s.inFlight.bind (commandWindow s.params) = none) :
    hostReset s = .next s.clearRegs := by
  unfold hostReset
  rw [h]

/-- A reset that abandons a decode also spoils its window. -/
theorem hostReset_of_window {s : State} {w : Window} (h : s.inFlight.bind (commandWindow s.params) = some w) :
    hostReset s = .next (s.clearRegs.spoilWindow w) := by
  unfold hostReset
  rw [h]

/-- A reset has a step in every state. -/
theorem hostReset_answers (s : State) : ∃ t, hostReset s = .next t := by
  cases h : s.inFlight.bind (commandWindow s.params) with
  | none => exact ⟨_, hostReset_of_no_window h⟩
  | some w => exact ⟨_, hostReset_of_window h⟩

/-- What is spoiled of `M`: the bytes of the window, each to its free value (R170). -/
theorem read_spoilWindow (s : State) (w : Window) (a : Nat) :
    Memory.read (s.spoilWindow w).mem a =
      if w.contains a = true then some (Config.resetByte s.draws a) else Memory.read s.mem a := by
  rw [State.spoilWindow_mem, read_spoilBytes]
  simp only [Window.mem_addresses]

/-- The registers of the units not addressed that the host can see. -/
def otherRegs (s : State) : List (BitVec 8 × BitVec 128 × Option Instr) :=
  s.others.map fun u => (u.status, u.res, u.inFlight)

/-- A reset clears the addressed unit and touches nothing else but `M` (log 6). -/
theorem hostReset_registers {s t : State} (h : hostReset s = .next t) :
    t.status = 0 ∧ t.res = 0 ∧ t.params = s.params ∧ t.inputs = s.inputs ∧ t.bus = s.bus ∧
      otherRegs t = otherRegs s := by
  obtain ⟨-, rfl⟩ | ⟨w, -, rfl⟩ := hostReset_next h
  · exact ⟨rfl, rfl, rfl, rfl, rfl, rfl⟩
  · simp only [State.spoilWindow_status, State.spoilWindow_res, State.spoilWindow_params, State.spoilWindow_inputs,
      State.spoilWindow_bus, State.clearRegs_status, State.clearRegs_res, State.clearRegs_params,
      State.clearRegs_inputs, State.clearRegs_bus, true_and]
    unfold otherRegs
    rw [State.spoilWindow_others, State.clearRegs_others, announceTo_regs]

/-- A command that is no decode has no window. -/
theorem commandWindow_eq_none_of_not_isDecode {p : Params} {i : Instr} (h : i.isDecode = false) :
    commandWindow p i = none :=
  if_neg (by simp [h])

/-- Settles O1: the two cases of `hostReset_next`, by whether the command in flight has a window. -/
theorem resetEffect : Obligations.ResetEffect := by
  unfold Obligations.ResetEffect
  intro s
  obtain ⟨t, ht⟩ := hostReset_answers s
  obtain ⟨hstatus, hres, hparams, hinputs, hbus, hothers⟩ := hostReset_registers ht
  refine ⟨t, ht, hstatus, hres, hostReset_busy ht, fun hdec => ?_, fun i w hi hw => ?_, hparams, hinputs, hbus, hothers⟩
  · have hnone : s.inFlight.bind (commandWindow s.params) = none :=
      Option.bind_eq_none_iff.mpr fun i hi => commandWindow_eq_none_of_not_isDecode (hdec i hi)
    obtain rfl : s.clearRegs = t := by simpa [hostReset_of_no_window hnone] using ht
    exact s.clearRegs_mem
  · have hsome : s.inFlight.bind (commandWindow s.params) = some w := by rw [hi, Option.bind_some, hw]
    rw [hostReset_of_window hsome, Host.Outcome.next.injEq] at ht
    have hread (a : Nat) : Memory.read t.mem a =
        if w.contains a = true then some (Config.resetByte s.draws a) else Memory.read s.mem a := by
      rw [← ht, read_spoilWindow, State.clearRegs_draws, State.clearRegs_mem]
    exact ⟨fun a ha => by rw [hread, if_pos ha], fun a ha => by rw [hread, if_neg (by simp [ha])]⟩

/-! ### Acceptance -/

theorem State.busy_ne_one {s : State} (h : s.busy = 0) : s.busy ≠ 1 := by
  rw [h]
  decide

/-- An idle unit accepts every command (R173). -/
theorem hostPresent_of_idle {s : State} {cmd : Nat} {i : Instr} (hb : s.busy = 0) (hi : decode s.params cmd = .ok i) :
    hostPresent cmd s = .next (s.accept i) := by
  unfold hostPresent
  rw [if_neg (State.busy_ne_one hb), hi]

/-- A transaction on an idle unit is the performance of its command, and an announcement of its window. -/
theorem hostCommand_of_idle {s t : State} {cmd : Nat} {i : Instr} (hb : s.busy = 0) (hi : decode s.params cmd = .ok i)
    (ht : exec i s = .next t) : hostCommand cmd s = .next (t.announce (windowBytes s.params i)) := by
  unfold hostCommand
  rw [if_neg (State.busy_ne_one hb), hi]
  simp only [ht]

/-- Settles O2: a reset leaves the unit idle and the parameters as they are. -/
theorem acceptsCommandAfterReset : Obligations.AcceptsCommandAfterReset := by
  unfold Obligations.AcceptsCommandAfterReset
  intro s t cmd ht hcmd
  have hbusy : t.busy = 0 := hostReset_busy ht
  obtain ⟨-, -, hparams, -⟩ := hostReset_registers ht
  rw [← hparams] at hcmd
  exact ⟨hbusy, _, decode_of_lt hcmd, hostPresent_of_idle hbusy (decode_of_lt hcmd), State.accept_busy ..⟩

/-! ### Completion -/

/-- Settles O15: `exec_next`. -/
theorem everyCommandCompletes : Obligations.EveryCommandCompletes := by
  unfold Obligations.EveryCommandCompletes
  intro i s
  obtain ⟨t, ht, hidle, -, hsame⟩ := exec_next i s
  exact ⟨t, ht, t.busy_eq_zero.mpr hidle, hsame⟩

/-- Settles O14: the step is the transaction, and with no unit in flight there is no one to tell. -/
theorem stepRunsDecodedCommand : Obligations.StepRunsDecodedCommand := by
  unfold Obligations.StepRunsDecodedCommand
  intro s cmd rest i hin hb hi
  have hstep : ∀ t, exec i (s.setInputs rest) = .next t → step s = .next (t.announce (windowBytes s.params i)) := by
    intro t ht
    rw [step_of_inputs hin]
    exact hostCommand_of_idle (s := s.setInputs rest) hb hi ht
  refine ⟨hstep, fun hidle => ?_⟩
  obtain ⟨t, ht, -, -, -, hothers, -⟩ := exec_next i (s.setInputs rest)
  rw [hstep t ht, ht, State.announce_idle]
  rwa [hothers]

/-- Settles O44: both runs complete as the command does from reset with those parameters. -/
theorem completionDependsOnCommandOnly : Obligations.CompletionDependsOnCommandOnly := by
  unfold Obligations.CompletionDependsOnCommandOnly
  intro i s s' t t' hparams ht ht'
  obtain ⟨u, v, hu, hv, hstatus, hres, -⟩ := exec_overwrites i s
  obtain ⟨u', v', hu', hv', hstatus', hres', -⟩ := exec_overwrites i s'
  obtain rfl : u = t := by simpa [hu] using ht
  obtain rfl : u' = t' := by simpa [hu'] using ht'
  obtain rfl : v = v' := by simpa [← hparams, hv] using hv'
  exact ⟨hstatus.trans hstatus'.symm, hres.trans hres'.symm⟩

/-! ### The handshake -/

/-- Performing an accepted command is performing it: what acceptance changes, completion overwrites. -/
theorem exec_accept (i : Instr) (s : State) : exec i (s.accept i) = exec i s := by
  obtain ⟨e, b, r, m, h, h'⟩ := exec_of_same_base i s (s.accept i) rfl rfl
  rw [h, h']
  rfl

/-- A command that completes with nothing between has no rival. -/
theorem hostAwait_accept {i : Instr} {s t : State} (ht : exec i s = .next t) :
    hostAwait (s.accept i) = .next (t.announce (windowBytes s.params i)) := by
  have hexec : exec i (s.accept i) = .next t := (exec_accept i s).trans ht
  unfold hostAwait
  simp only [State.accept_inFlight, hexec]
  rw [State.settle_of_no_rivals _ _ _ (s.accept_rivals i), landedBytes_of_no_rivals i (s.accept_rivals i),
    State.accept_params]

/-- A number that is no command is refused, presented in either way (log 11). -/
theorem present_command_notACommand {s : State} {cmd : Nat} {r : DecodeReject} (hb : s.busy = 0)
    (hr : decode s.params cmd = .error r) :
    hostPresent cmd s = .refused .notACommand ∧ hostCommand cmd s = .refused .notACommand := by
  unfold hostPresent hostCommand
  rw [if_neg (State.busy_ne_one hb), if_neg (State.busy_ne_one hb), hr]
  exact ⟨rfl, rfl⟩

/-- The step of a state with `e` placed at the head of its events. -/
theorem step_setInputs (s : State) (e : HostEvent) (rest : List HostEvent) :
    step (s.setInputs (e :: rest)) = hostEvent e (s.setInputs rest) := by
  rw [step_of_inputs (s.setInputs_inputs _), State.setInputs_setInputs]

/-- Acceptance and the list of coming events are apart. -/
theorem State.accept_setInputs (s : State) (l : List HostEvent) (i : Instr) :
    (s.setInputs l).accept i = (s.accept i).setInputs l := rfl

/-- Settles O17: the two refusals stop both alike; an accepted command completes with no rival. -/
theorem handshakeIsTransaction : Obligations.HandshakeIsTransaction := by
  unfold Obligations.HandshakeIsTransaction
  intro s cmd rest
  have htrans : step (s.setInputs (.command cmd :: rest)) = hostCommand cmd (s.setInputs rest) := step_setInputs ..
  have hpresent : step (s.setInputs (.present cmd :: .await :: rest)) =
      hostPresent cmd (s.setInputs (.await :: rest)) := step_setInputs ..
  rw [htrans]
  by_cases hb : s.busy = 1
  · rw [hostCommand_of_busy (s := s.setInputs rest) cmd hb]
    exact run_succ_of_refused (hpresent.trans (hostPresent_of_busy cmd hb))
  have hb := State.busy_eq_zero_of_ne_one hb
  cases hi : decode s.params cmd with
  | error r =>
    obtain ⟨-, hcommand⟩ := present_command_notACommand (s := s.setInputs rest) hb hi
    obtain ⟨hrefused, -⟩ := present_command_notACommand (s := s.setInputs (.await :: rest)) hb hi
    rw [hcommand]
    exact run_succ_of_refused (hpresent.trans hrefused)
  | ok i =>
    obtain ⟨t, ht, -⟩ := exec_next i (s.setInputs rest)
    have haccept := hpresent.trans (hostPresent_of_idle (s := s.setInputs (.await :: rest)) hb hi)
    have hawait : step ((s.setInputs (.await :: rest)).accept i) =
        .next (t.announce (windowBytes (s.setInputs rest).params i)) := by
      rw [State.accept_setInputs, step_setInputs, ← State.accept_setInputs]
      exact hostAwait_accept ht
    exact (run_succ_of_next haccept).trans <| (run_succ_of_next hawait).trans
      (hostCommand_of_idle (s := s.setInputs rest) hb hi ht).symm

end Machine
end Sys2Proof
end

section
/-! SUPPORT. The host's accesses, its duties, and who changes `M` (spec 10_state.md R30, 20_memory.md R40 to R53,
60_exceptions.md R162, 70_reset_and_hazards.md R174, R175). -/

namespace Sys2Proof
namespace Machine

/-! ### Windows in flight -/

/-- Command `i` is in flight on some unit. -/
def InFlightSomewhere (s : State) (i : Instr) : Prop := s.inFlight = some i ∨ ∃ u ∈ s.others, u.inFlight = some i

/-- The windows in flight are those of the commands in flight on any unit (log 19). -/
theorem mem_windowsInFlight {s : State} {w : Window} :
    w ∈ windowsInFlight s ↔ ∃ i, InFlightSomewhere s i ∧ commandWindow s.params i = some w := by
  simp only [windowsInFlight, List.mem_filterMap, List.mem_cons, List.mem_map, Option.bind_eq_some_iff]
  constructor
  · rintro ⟨c, hc | ⟨u, hu, hc⟩, i, hi, hw⟩
    · exact ⟨i, .inl (hc.symm.trans hi), hw⟩
    · exact ⟨i, .inr ⟨u, hu, hc.trans hi⟩, hw⟩
  · rintro ⟨i, hi | ⟨u, hu, hi⟩, hw⟩
    · exact ⟨_, .inl rfl, i, hi, hw⟩
    · exact ⟨_, .inr ⟨u, hu, rfl⟩, i, hi, hw⟩

theorem inWindowInFlight_iff {s : State} {a : Nat} :
    inWindowInFlight s a = true ↔
      ∃ i w, InFlightSomewhere s i ∧ commandWindow s.params i = some w ∧ w.contains a = true := by
  simp only [inWindowInFlight, List.any_eq_true, mem_windowsInFlight]
  constructor
  · rintro ⟨w, ⟨i, hi, hw⟩, ha⟩
    exact ⟨i, w, hi, hw, ha⟩
  · rintro ⟨i, w, hi, hw, ha⟩
    exact ⟨w, ⟨i, hi, hw⟩, ha⟩

/-! ### Accesses to `M` -/

section Access
variable {s : State} {a : Nat} (v : Byte)

theorem host_access_outside (h : s.params.memSize ≤ a) :
    hostWriteM a v s = .fault .addressOutsideM ∧ hostReadM a s = .fault .addressOutsideM :=
  ⟨if_pos h, if_pos h⟩

theorem host_access_refused (ha : a < s.params.memSize) (h : inWindowInFlight s a = true) :
    hostReadM a s = .refused .windowAccessWhileBusy ∧ hostWriteM a v s = .refused .windowAccessWhileBusy := by
  unfold hostReadM hostWriteM
  simp only [if_neg (Nat.not_le.mpr ha), if_pos h, and_self]

theorem hostReadM_of_free (ha : a < s.params.memSize) (h : inWindowInFlight s a = false) :
    hostReadM a s = .next (s.setBus ((hostByte s a).setWidth 128)) := by
  simp only [hostReadM, if_neg (Nat.not_le.mpr ha), h, Bool.false_eq_true, if_false]

theorem hostWriteM_of_free (ha : a < s.params.memSize) (h : inWindowInFlight s a = false) :
    hostWriteM a v s = .next (s.setMem (Memory.write s.mem a v)) := by
  simp only [hostWriteM, if_neg (Nat.not_le.mpr ha), h, Bool.false_eq_true, if_false]

/-- Writing `M` moves no window. -/
theorem inWindowInFlight_setMem (s : State) (m : Memory) (a : Nat) :
    inWindowInFlight (s.setMem m) a = inWindowInFlight s a := rfl

end Access

/-- Settles O20: the host's accesses test the windows in flight, which are those of the commands in flight. -/
theorem windowAccessWhileBusy : Obligations.WindowAccessWhileBusy := by
  unfold Obligations.WindowAccessWhileBusy
  intro s a v ha
  refine ⟨fun i w hi hw hin => host_access_refused v ha (inWindowInFlight_iff.mpr ⟨i, w, hi, hw, hin⟩), fun hfree => ?_⟩
  have hfree : inWindowInFlight s a = false := by
    rw [Bool.eq_false_iff, Ne, inWindowInFlight_iff]
    rintro ⟨i, w, hi, hw, hin⟩
    rw [hfree i w hi hw] at hin
    cases hin
  exact ⟨hostReadM_of_free ha hfree, hostWriteM_of_free v ha hfree⟩

/-- Settles O22: the write is one `Memory.write`, read back by `Memory.read_write`. -/
theorem hostReadsItsLastWrite : Obligations.HostReadsItsLastWrite := by
  unfold Obligations.HostReadsItsLastWrite
  intro s a v
  refine ⟨fun ha hfree => ⟨_, hostWriteM_of_free v ha hfree, ?_, fun b hb => Memory.read_write_of_ne _ _ hb,
    rfl, rfl, rfl, rfl, rfl, rfl, rfl, rfl, rfl⟩, host_access_outside v⟩
  have hbyte : hostByte (s.setMem (Memory.write s.mem a v)) a = v := by
    rw [hostByte, State.setMem_mem, Memory.read_write_same, Option.getD_some]
  rw [hostReadM_of_free (s := s.setMem (Memory.write s.mem a v)) ha (inWindowInFlight_setMem .. |>.trans hfree), hbyte]

/-- Settles O21: a register write is no step of its own, a register read puts the register on `bus`. -/
theorem registerAccesses : Obligations.RegisterAccesses := by
  unfold Obligations.RegisterAccesses
  exact fun s r v => ⟨rfl, rfl, rfl, rfl⟩

/-! ### The host's duties -/

theorem hostAwait_answers (s : State) : ∃ t, hostAwait s = .next t := by
  unfold hostAwait
  cases s.inFlight with
  | none => exact ⟨s, rfl⟩
  | some i =>
    obtain ⟨t, ht, -⟩ := exec_next i s
    simp only [ht]
    exact ⟨_, rfl⟩

theorem hostSelect_of_getElem? {s : State} {k : Nat} {u : UnitRegs} (h : s.others[k]? = some u) :
    hostSelect k s = .next (s.swap k u) := by
  unfold hostSelect
  rw [h]

/-- A host event that keeps the host's duties answers a next state. -/
theorem hostEvent_answers {s : State} {e : HostEvent} (h : KeepsDuty s e) : ∃ t, hostEvent e s = .next t := by
  cases e with
  | command cmd =>
    obtain ⟨hb, hcmd⟩ := h
    obtain ⟨t, ht, -⟩ := exec_next _ s
    exact ⟨_, hostCommand_of_idle hb (decode_of_lt hcmd) ht⟩
  | present cmd =>
    obtain ⟨hb, hcmd⟩ := h
    exact ⟨_, hostPresent_of_idle hb (decode_of_lt hcmd)⟩
  | await => exact hostAwait_answers s
  | readM a =>
    obtain ⟨ha, hfree⟩ := h
    exact ⟨_, hostReadM_of_free ha hfree⟩
  | writeM a v =>
    obtain ⟨ha, hfree⟩ := h
    exact ⟨_, hostWriteM_of_free v ha hfree⟩
  | readReg r => exact ⟨_, rfl⟩
  | writeReg r v => exact ⟨_, rfl⟩
  | reset => exact hostReset_answers s
  | select k => exact ⟨_, hostSelect_of_getElem? (List.getElem?_eq_getElem h)⟩

/-- Settles O16: a dutiful event answers, and no event but the step itself takes one from the list. -/
theorem dutifulHostNeverStops : Obligations.DutifulHostNeverStops := by
  unfold Obligations.DutifulHostNeverStops
  intro s e rest hin hduty
  obtain ⟨t, ht⟩ := hostEvent_answers hduty
  exact ⟨t, (step_of_inputs hin).trans ht, (hostEvent_inputs ht).trans (s.setInputs_inputs rest)⟩

/-! ### Who changes `M` -/

/-- A command changes no byte outside its window (20_memory.md R45). -/
theorem inCommandWindow_of_exec_ne {i : Instr} {s t : State} {a : Nat} (ht : exec i s = .next t)
    (h : Memory.read t.mem a ≠ Memory.read s.mem a) : InCommandWindow s.params i a := by
  obtain ⟨e, b, r, m, hexec, -, -, hframe⟩ := exec_memory i s
  obtain rfl : (s.setMem m).complete e b r = t := by simpa [hexec] using ht
  exact not_not.mp fun hout => h (hframe a hout)

/-- The event `e` may change byte `a` of `M`. -/
def MayChange (s : State) (a : Nat) : HostEvent → Prop
  | .writeM b _ => b = a
  | .command cmd => ∃ i, decode s.params cmd = .ok i ∧ InCommandWindow s.params i a
  | .await | .reset => ∃ i, s.inFlight = some i ∧ InCommandWindow s.params i a
  | _ => False

theorem mayChange_of_hostEvent {e : HostEvent} {s t : State} {a : Nat} (ht : hostEvent e s = .next t)
    (h : Memory.read t.mem a ≠ Memory.read s.mem a) : MayChange s a e := by
  cases e with
  | command cmd =>
    obtain ⟨-, i, u, hi, hu, rfl⟩ := hostCommand_next ht
    exact ⟨i, hi, inCommandWindow_of_exec_ne hu h⟩
  | present cmd =>
    obtain ⟨-, i, -, rfl⟩ := hostPresent_next ht
    exact h rfl
  | await =>
    obtain ⟨-, rfl⟩ | ⟨i, u, hi, hu, rfl⟩ := hostAwait_next ht
    · exact absurd rfl h
    · rw [State.announce_mem, State.read_settle] at h
      split at h
      · exact absurd rfl h
      · exact ⟨i, hi, inCommandWindow_of_exec_ne hu h⟩
  | readM b =>
    obtain ⟨-, -, rfl⟩ := hostReadM_next ht
    exact h rfl
  | writeM b v =>
    obtain ⟨-, -, rfl⟩ := hostWriteM_next ht
    exact not_not.mp fun hne => h (Memory.read_write_of_ne _ _ (Ne.symm hne))
  | readReg r =>
    obtain rfl := hostReadReg_next ht
    exact h rfl
  | writeReg r v =>
    obtain rfl := hostWriteReg_next r v ht
    exact h rfl
  | reset =>
    obtain ⟨-, rfl⟩ | ⟨w, hw, rfl⟩ := hostReset_next ht
    · exact absurd rfl h
    · rw [read_spoilWindow] at h
      split at h
      next hin =>
        obtain ⟨i, hi, hw⟩ := Option.bind_eq_some_iff.mp hw
        exact ⟨i, hi, w, hw, hin⟩
      · exact absurd rfl h
  | select k =>
    obtain ⟨u, -, rfl⟩ := hostSelect_next ht
    exact h rfl

/-- Settles O23: the event that changed the byte is one that may. -/
theorem onlyWritersChangeMemory : Obligations.OnlyWritersChangeMemory := by
  unfold Obligations.OnlyWritersChangeMemory
  intro s t a ht h
  cases hin : s.inputs with
  | nil =>
    obtain rfl : s = t := by simpa [step_of_no_inputs hin] using ht
    exact absurd rfl h
  | cons e rest =>
    rw [step_of_inputs hin] at ht
    have hmay : MayChange (s.setInputs rest) a e := mayChange_of_hostEvent ht h
    cases e with
    | writeM b v =>
      obtain rfl : b = a := hmay
      exact .inl ⟨v, rest, rfl⟩
    | command cmd =>
      obtain ⟨i, hi, w, hw, ha⟩ := hmay
      exact .inr (.inl ⟨cmd, rest, i, w, rfl, hi, hw, ha⟩)
    | await =>
      obtain ⟨i, hi, w, hw, ha⟩ := hmay
      exact .inr (.inr ⟨rest, i, w, .inl rfl, hi, hw, ha⟩)
    | reset =>
      obtain ⟨i, hi, w, hw, ha⟩ := hmay
      exact .inr (.inr ⟨rest, i, w, .inr rfl, hi, hw, ha⟩)
    | present _ | readM _ | readReg _ | writeReg _ _ | select _ => exact hmay.elim

/-! ### Several units -/

/-- Turning back gives the state back. -/
theorem State.swap_swap {s : State} {k : Nat} {u : UnitRegs} (h : s.others[k]? = some u) :
    (s.swap k u).swap k s.unit = s := by
  have hothers : (s.others.set k s.unit).set k u = s.others := by
    obtain ⟨hk, rfl⟩ := List.getElem?_eq_some_iff.mp h
    rw [List.set_set, List.set_getElem_self]
  calc (s.swap k u).swap k s.unit = { s with others := (s.others.set k s.unit).set k u } := rfl
    _ = s := by rw [hothers]

/-- Settles O54: a command keeps the other units, an announcement keeps their registers, and turning twice is turning back. -/
theorem unitsShareOnlyMemory : Obligations.UnitsShareOnlyMemory := by
  unfold Obligations.UnitsShareOnlyMemory
  refine ⟨fun i s t h => ?_, fun s t cmd h => ?_, fun s k hk => ?_⟩
  · obtain ⟨-, -, -, hothers, -⟩ := exec_next_of_eq h
    exact hothers
  · obtain ⟨-, i, u, -, hu, rfl⟩ := hostCommand_next h
    obtain ⟨-, -, -, hothers, -⟩ := exec_next_of_eq hu
    rw [State.announce_others, announceTo_regs, hothers]
  · have hu := List.getElem?_eq_getElem hk
    have hback : (s.swap k s.others[k]).others[k]? = some s.unit := by
      rw [State.swap_others, List.getElem?_set_self hk]
    refine ⟨_, hostSelect_of_getElem? hu, ?_, State.swap_mem ..⟩
    rw [hostSelect_of_getElem? hback, State.swap_swap hu]

end Machine
end Sys2Proof
end

section
/-! SUPPORT. The palettes beside the circuits of the rules and beside each other, and the operand bytes an operation uses
(spec 41_bc1.md R104, 42_dxt5_alpha.md R124, 43_bc3.md R139, 30_encoding.md R64 to R67). -/

namespace Sys2Proof
namespace Machine

/-! ### Division circuits -/

/-- Multiplying by `c` and dividing by `M` divides by `d`, where `c / M` exceeds `1 / d` by so little that the excess of the
whole product stays below one unit. -/
theorem mul_div_eq_div {q c d e M : Nat} (hd : 0 < d) (hc : c * d = M + e) (hq : q * e < M) : q * c / M = q / d := by
  have hM : 0 < M := Nat.zero_lt_of_lt hq
  calc q * c / M = q * c * d / (M * d) := (Nat.mul_div_mul_right _ _ hd).symm
    _ = (q * e + q * M) / M / d := by
      rw [Nat.div_div_eq_div_mul, mul_assoc, hc, mul_add, add_comm]
    _ = q / d := by rw [Nat.add_mul_div_right _ _ hM, Nat.div_eq_of_lt hq, Nat.zero_add]

/-- The exact numerator of an interpolation is at most 255 times its divisor. -/
theorem numerator_le {m n d : Nat} (hw : m + n = d) (x y : Byte) : m * x.toNat + n * y.toNat ≤ d * 255 := by
  have byte_le (b : Byte) : b.toNat ≤ 255 := Nat.le_of_lt_succ b.isLt
  calc m * x.toNat + n * y.toNat ≤ m * 255 + n * 255 := by gcongr <;> exact byte_le _
    _ = d * 255 := by rw [← Nat.add_mul, hw]

/-- The circuit that multiplies by `c` and shifts by `k` makes every interpolation of divisor `d`, if `c` is `2^k / d`
rounded up by little enough for the largest numerator. -/
theorem blend_eq_circuit {m n d : Nat} (c k e : Nat) (hw : m + n = d) (hd : 0 < d) (hc : c * d = 2 ^ k + e)
    (he : d * 255 * e < 2 ^ k) (x y : Byte) :
    blend m n d x y = BitVec.ofNat 8 (((m * x.toNat + n * y.toNat) * c) >>> k) := by
  have hq : (m * x.toNat + n * y.toNat) * e < 2 ^ k := (Nat.mul_le_mul_right e (numerator_le hw x y)).trans_lt he
  rw [Nat.shiftRight_eq_div_pow, mul_div_eq_div hd hc hq, blend]

/-- Settles O35: the circuit of each divisor; a half is a shift alone. -/
theorem divisionCircuits : Obligations.DivisionCircuits := by
  unfold Obligations.DivisionCircuits
  intro m n x y q
  refine ⟨fun hw => ?_, fun hw => ?_, fun hw => ?_, fun hw => ?_⟩
  · exact blend_eq_circuit 683 11 1 hw (by decide) (by decide) (by decide) x y
  · have half := blend_eq_circuit 1 1 0 hw (by decide) (by decide) (by decide) x y
    rwa [Nat.mul_one] at half
  · exact blend_eq_circuit 2341 14 3 hw (by decide) (by decide) (by decide) x y
  · exact blend_eq_circuit 1639 13 3 hw (by decide) (by decide) (by decide) x y

/-! ### The colour half of a BC3 block -/

/-- With `c0 > c1` every mode is four-colour (R91). -/
theorem isFourColour_of_lt {c0 c1 : Packed565} (mode : PaletteMode) (h : c1 < c0) : isFourColour c0 c1 mode = true :=
  (isFourColour_iff c0 c1 mode).mpr (.inr (BitVec.lt_def.mp h))

/-- With `c0 = c1` only the forced mode is four-colour (R91). -/
theorem isFourColour_self (c : Packed565) {mode : PaletteMode} (hm : mode ≠ .four) : isFourColour c c mode = false := by
  rw [Bool.eq_false_iff, Ne, isFourColour_iff]
  rintro (h | h)
  · exact hm h
  · exact absurd h (Nat.lt_irrefl _)

/-- A blended entry of one colour is that colour. -/
theorem blendRgb_self {m n d : Nat} (hd : 0 < d) (hw : m + n = d) (x : Rgb) : blendRgb m n d x x = opaquePixel x := by
  unfold blendRgb opaquePixel
  rw [blend_self hd hw, blend_self hd hw, blend_self hd hw]

/-- With `c0 = c1` every entry of the forced mode is the one colour (R139). -/
theorem colorPalette_four_self (c : Packed565) (k : Fin 4) :
    (colorPalette c c .four)[k] = opaquePixel (expand565 c) := by
  rw [colorPalette_of_fourColour rfl, blendRgb_self (by decide) rfl, blendRgb_self (by decide) rfl]
  match k with
  | 0 | 1 | 2 | 3 => rfl

/-- Settles O39: the mode alone tells the palettes apart; the numeric example is evaluated. -/
theorem bc3ColourBesideBc1 : Obligations.Bc3ColourBesideBc1 := by
  unfold Obligations.Bc3ColourBesideBc1
  refine ⟨fun c0 c1 mode h => ?_, by decide, fun c k => ⟨colorPalette_four_self c k, ?_, ?_⟩⟩
  · rw [colorPalette_of_fourColour (isFourColour_of_lt mode h), colorPalette_of_fourColour rfl]
  · exact (colorPalette_half_black (isFourColour_self c (by decide))).2
  · exact (colorPalette_half_black (isFourColour_self c (by decide))).2

/-! ### Ignored operands -/

section Slices
variable {b b' : Block}

/-- Blocks that agree in their low `n` bits agree in every slice of them. -/
theorem extractLsb'_congr {n : Nat} (h : b.extractLsb' 0 n = b'.extractLsb' 0 n) {j l : Nat} (hj : j + l ≤ n) :
    b.extractLsb' j l = b'.extractLsb' j l := by
  have hslice (c : Block) : (c.extractLsb' 0 n).extractLsb' j l = c.extractLsb' j l := by
    rw [extractLsb'_extractLsb' c hj, Nat.zero_add]
  rw [← hslice b, h, hslice b']

/-- A BC1 tile uses `blk[63:0]` (R64). -/
theorem bc1Tile_congr (mode : PaletteMode) (h : b.extractLsb' 0 64 = b'.extractLsb' 0 64) :
    bc1Tile mode b = bc1Tile mode b' := by
  rw [bc1Tile_eq, bc1Tile_eq]
  funext row col
  rw [extractLsb'_congr h (by decide : 0 + 16 ≤ 64), extractLsb'_congr h (by decide : 16 + 16 ≤ 64),
    extractLsb'_congr h (by omega : 32 + 2 * (4 * row.val + col.val) + 2 ≤ 64)]

/-- A palette operation uses `blk[31:0]` (R66). -/
theorem paletteResult_congr (mode : PaletteMode) (h : b.extractLsb' 0 32 = b'.extractLsb' 0 32) :
    paletteResult mode b = paletteResult mode b' := by
  rw [paletteResult_eq, paletteResult_eq, extractLsb'_congr h (by decide : 0 + 16 ≤ 32),
    extractLsb'_congr h (by decide : 16 + 16 ≤ 32)]

theorem le16_zero_congr (h : b.extractLsb' 0 16 = b'.extractLsb' 0 16) : le16 b 0 = le16 b' 0 := by
  rw [le16_eq_extractLsb', le16_eq_extractLsb']
  exact h

theorem blockByte_congr (h : b.extractLsb' 0 16 = b'.extractLsb' 0 16) {i : Nat} (hi : 8 * i + 8 ≤ 16) :
    blockByte b i = blockByte b' i :=
  extractLsb'_congr h hi

end Slices

/-- What a palette operation completes with (R100 to R102). -/
theorem exec_cpal (blk : Block) (dst stride : Nat) (s : State) :
    exec (.cpalBc1 blk dst stride) s = .next (s.complete .ok false (paletteResult .bc1 blk)) ∧
    exec (.cpalBc1a blk dst stride) s = .next (s.complete .ok false (paletteResult .bc1a blk)) ∧
    exec (.cpal4c blk dst stride) s = .next (s.complete .ok false (paletteResult .four blk)) :=
  ⟨rfl, rfl, rfl⟩

/-- Settles O46: each operation is a function of the slices of `blk` that agree. -/
theorem ignoredOperands : Obligations.IgnoredOperands := by
  unfold Obligations.IgnoredOperands
  intro b b' d d' st st' s
  refine ⟨fun h => ⟨?_, ?_⟩, fun h => ⟨?_, ?_⟩, fun h => ?_⟩
  · rw [exec_decBc1, exec_decBc1, bc1Tile_congr .bc1 h]
  · rw [exec_decBc1a, exec_decBc1a, bc1Tile_congr .bc1a h]
  · rw [exec_expand565, exec_expand565, le16_zero_congr h]
  · rw [exec_apal, exec_apal, blockByte_congr h (by decide : 8 * 0 + 8 ≤ 16),
      blockByte_congr h (by decide : 8 * 1 + 8 ≤ 16)]
  · obtain ⟨hbc1, hbc1a, hfour⟩ := exec_cpal b d st s
    obtain ⟨hbc1', hbc1a', hfour'⟩ := exec_cpal b' d' st' s
    rw [hbc1, hbc1', hbc1a, hbc1a', hfour, hfour', paletteResult_congr .bc1 h, paletteResult_congr .bc1a h,
      paletteResult_congr .four h]
    exact ⟨rfl, rfl, rfl⟩

end Machine
end Sys2Proof
end

section
/-! SUPPORT. The host's block-grid convention (spec 20_memory.md R58): a byte of the raster tells the block it belongs to. -/

namespace Sys2Proof
namespace Machine

section Grid
variable {base width : Nat}

/-- The 16 bytes of a block's row from address `n` on are those whose quotient by 16 is `n / 16`. -/
theorem sixteenBytes_iff {n a q : Nat} (h : n = base + q * 16) : n ≤ a ∧ a ≤ n + 15 ↔ base ≤ a ∧ (a - base) / 16 = q := by
  omega

/-- Row `row` of block `(bx, bY)` starts a whole number of 16 byte units above the base. -/
theorem gridWindow_row (bx bY row : Nat) :
    (gridWindow base width bx bY).dst + row * (gridWindow base width bx bY).stride =
      base + (bx + gridBlocks width * (4 * bY + row)) * 16 := by
  simp only [gridWindow, gridStride]
  ring

/-- The block a byte belongs to: `bx` and the pixel row are remainder and quotient of its distance from the base, in units
of 16 bytes; four pixel rows make a row of blocks. -/
theorem gridWindow_contains_iff {bx bY a : Nat} (hbx : bx < gridBlocks width) :
    (gridWindow base width bx bY).contains a = true ↔
      base ≤ a ∧ (a - base) / 16 % gridBlocks width = bx ∧ (a - base) / 16 / gridBlocks width / 4 = bY := by
  have hdivmod (q row : Nat) : q = bx + gridBlocks width * row ↔
      q / gridBlocks width = row ∧ q % gridBlocks width = bx := by
    rw [Nat.div_mod_unique (Nat.zero_lt_of_lt hbx), eq_comm]
    exact (and_iff_left hbx).symm
  simp only [Window.contains_iff, sixteenBytes_iff (gridWindow_row bx bY _), hdivmod]
  constructor
  · rintro ⟨row, ha, hq, hr⟩
    exact ⟨ha, hr, by omega⟩
  · rintro ⟨ha, hr, hq⟩
    exact ⟨⟨(a - base) / 16 / gridBlocks width % 4, Nat.mod_lt _ (by decide)⟩, ha, by simp only; omega, hr⟩

/-- A byte lies in the raster exactly if its row of blocks is one of the image's. -/
theorem lt_gridBytes_iff (height n : Nat) (hw : 0 < gridBlocks width) :
    n < gridBytes width height ↔ n / 16 / gridBlocks width / 4 < gridBlocks height := by
  rw [Nat.div_lt_iff_lt_mul (by decide), Nat.div_lt_iff_lt_mul hw, Nat.div_lt_iff_lt_mul (by decide), gridBytes,
    gridStride]
  ring_nf

/-- An image without columns has an empty raster. -/
theorem gridBytes_of_no_blocks (height : Nat) (hw : gridBlocks width = 0) : gridBytes width height = 0 := by
  simp only [gridBytes, gridStride, hw, Nat.zero_mul]

end Grid

/-- Settles O48: a byte tells its block, so two windows that share one are the same block's; and the blocks a raster byte
can tell are those of the image. -/
theorem gridWindowsTileTheRaster : Obligations.GridWindowsTileTheRaster := by
  unfold Obligations.GridWindowsTileTheRaster
  intro base width height
  refine ⟨fun bx bY bx' bY' hbx hbx' hne a ⟨ha, ha'⟩ => hne ?_, fun a => ⟨?_, ?_⟩⟩
  · obtain ⟨-, hx, hy⟩ := (gridWindow_contains_iff hbx).mp ha
    obtain ⟨-, hx', hy'⟩ := (gridWindow_contains_iff hbx').mp ha'
    rw [← hx, ← hx', ← hy, ← hy']
  · rintro ⟨hbase, hlt⟩
    have hw : 0 < gridBlocks width := Nat.pos_of_ne_zero fun h => by
      rw [gridBytes_of_no_blocks height h] at hlt
      omega
    have hbx := Nat.mod_lt ((a - base) / 16) hw
    exact ⟨_, _, hbx, (lt_gridBytes_iff height _ hw).mp (by omega), (gridWindow_contains_iff hbx).mpr ⟨hbase, rfl, rfl⟩⟩
  · rintro ⟨bx, bY, hbx, hbY, ha⟩
    obtain ⟨hbase, -, rfl⟩ := (gridWindow_contains_iff hbx).mp ha
    have hlt := (lt_gridBytes_iff height (a - base) (Nat.zero_lt_of_lt hbx)).mpr hbY
    exact ⟨hbase, by omega⟩

end Machine
end Sys2Proof
end

section
/-! SUPPORT. Runs of host events, and what they leave in each byte of `M` (spec 60_exceptions.md R162,
70_reset_and_hazards.md R173, R177, R179). -/

namespace Sys2Proof
namespace Machine

/-! ### What a command writes -/

/-- A command writes exactly the bytes of its window. -/
theorem valueWritten_isSome_iff {p : Params} {i : Instr} {a : Nat} :
    (valueWritten p i a).isSome = true ↔ InCommandWindow p i a := by
  obtain ⟨e, b, r, hplain, hdecode⟩ := exec_spec p i
  cases hw : commandWindow p i with
  | none =>
    rw [valueWritten_of_exec (hplain (State.resetWith p 0) rfl hw), State.complete_mem, State.resetWith_mem]
    simp [InCommandWindow, hw]
  | some w =>
    obtain ⟨tile, -, hexec⟩ := hdecode w hw
    obtain ⟨hs, -⟩ := commandWindow_bounds hw
    rw [valueWritten_of_exec (hexec (State.resetWith p 0) rfl), State.complete_mem, State.setMem_mem,
      State.resetWith_mem]
    cases hin : w.contains a with
    | true =>
      obtain ⟨v, -, hv⟩ := read_tileWrite_of_inside tile hs hin
      rw [hv []]
      simp [InCommandWindow, hw, hin]
    | false =>
      rw [read_tileWrite_of_outside tile [] hin, Memory.read_nil]
      simp [InCommandWindow, hw, hin]

theorem mem_windowBytes_iff_valueWritten {p : Params} {i : Instr} {a : Nat} :
    a ∈ windowBytes p i ↔ (valueWritten p i a).isSome = true :=
  mem_windowBytes.trans valueWritten_isSome_iff.symm

/-- A command leaves its own value in the bytes it writes and the others as they were. -/
theorem read_of_exec {i : Instr} {s t : State} (h : exec i s = .next t) (a : Nat) :
    Memory.read t.mem a = (valueWritten s.params i a).or (Memory.read s.mem a) := by
  obtain ⟨u, -, hu, -, -, -, hmem⟩ := exec_overwrites i s
  obtain rfl : u = t := by simpa [hu] using h
  exact hmem a

/-- A command keeps the canonical form of `M`. -/
theorem wf_of_exec {i : Instr} {s t : State} (h : exec i s = .next t) (hs : Memory.wf s.mem) : Memory.wf t.mem := by
  obtain ⟨e, b, r, m, hexec, hwf, -⟩ := exec_memory i s
  obtain rfl : (s.setMem m).complete e b r = t := by simpa [hexec] using h
  exact hwf hs

/-! ### Runs -/

section Runs
variable {s : State} (rest : List HostEvent) (n : Nat)

/-- The events to come are no operand of a command. -/
theorem exec_setInputs {i : Instr} {t : State} (h : exec i s = .next t) :
    exec i (s.setInputs rest) = .next (t.setInputs rest) := by
  obtain ⟨e, b, r, m, h₁, h₂⟩ := exec_of_same_base i s (s.setInputs rest) rfl rfl
  obtain rfl : (s.setMem m).complete e b r = t := by simpa [h₁] using h
  exact h₂

theorem run_present {i : Instr} (hb : s.busy = 0) (hi : i.WellFormed s.params) :
    Host.Core.run core (n + 1) (s.setInputs (.present (encode s.params i) :: rest)) =
      Host.Core.run core n ((s.accept i).setInputs rest) :=
  run_succ_of_next ((step_setInputs ..).trans
    (hostPresent_of_idle (s := s.setInputs rest) hb (decodeOfEncode s.params i hi)))

theorem run_select {k : Nat} {u : UnitRegs} (hu : s.others[k]? = some u) :
    Host.Core.run core (n + 1) (s.setInputs (.select k :: rest)) =
      Host.Core.run core n ((s.swap k u).setInputs rest) :=
  run_succ_of_next ((step_setInputs ..).trans (hostSelect_of_getElem? (s := s.setInputs rest) hu))

theorem run_command {i : Instr} {t : State} (hb : s.busy = 0) (hi : i.WellFormed s.params) (ht : exec i s = .next t) :
    Host.Core.run core (n + 1) (s.setInputs (.command (encode s.params i) :: rest)) =
      Host.Core.run core n ((t.announce (windowBytes s.params i)).setInputs rest) :=
  run_succ_of_next ((step_setInputs ..).trans
    (hostCommand_of_idle (s := s.setInputs rest) hb (decodeOfEncode s.params i hi) (exec_setInputs rest ht)))

end Runs

/-! ### Decodes one after the other -/

/-- What byte `a` holds after command `i`, where it held `v`. -/
def overwriteByte (p : Params) (a : Nat) (v : Option Byte) (i : Instr) : Option Byte := (valueWritten p i a).or v

/-- Commands on an idle unit complete one after the other, each byte being overwritten by each command in turn. -/
theorem run_commandsOf (l : List Instr) {s : State} (hb : s.busy = 0) (hl : ∀ i ∈ l, i.WellFormed s.params) :
    ∃ t : State, Host.Core.run core l.length (s.setInputs (commandsOf s.params l)) = .next t ∧
      (Memory.wf s.mem → Memory.wf t.mem) ∧
      ∀ a, Memory.read t.mem a = l.foldl (overwriteByte s.params a) (Memory.read s.mem a) := by
  induction l generalizing s with
  | nil => exact ⟨_, rfl, id, fun _ => rfl⟩
  | cons i l ih =>
    rw [List.forall_mem_cons] at hl
    obtain ⟨hi, hl⟩ := hl
    obtain ⟨u, hu, -, -, hparams, -⟩ := exec_next i s
    rw [← hparams] at hl
    have hidle : (u.announce (windowBytes s.params i)).busy = 0 := by
      rw [State.announce_busy, exec_busy hu]
    obtain ⟨t, ht, hwf, hread⟩ := ih hidle hl
    rw [State.announce_params, hparams] at ht hread
    refine ⟨t, (run_command _ _ hb hi hu).trans ht, fun h => hwf ?_, fun a => ?_⟩
    · rw [State.announce_mem]
      exact wf_of_exec hu h
    · rw [hread a, List.foldl_cons, State.announce_mem, read_of_exec hu a]
      rfl

/-- Two commands of disjoint windows may be exchanged. -/
theorem overwriteByte_comm {p : Params} {i j : Instr} {a : Nat}
    (h : ¬ (InCommandWindow p i a ∧ InCommandWindow p j a)) (v : Option Byte) :
    overwriteByte p a (overwriteByte p a v i) j = overwriteByte p a (overwriteByte p a v j) i := by
  have none_of_not {i : Instr} (h : ¬ InCommandWindow p i a) : valueWritten p i a = none := by
    rwa [← valueWritten_isSome_iff, Option.isSome_iff_ne_none, not_not] at h
  unfold overwriteByte
  obtain h | h := not_and_or.mp h
  · simp only [none_of_not h, Option.none_or]
  · simp only [none_of_not h, Option.none_or]

/-- The windows of the two commands, where they have one, share no byte. -/
def DisjointCommands (p : Params) (i j : Instr) : Prop :=
  ∀ w v, commandWindow p i = some w → commandWindow p j = some v → w.Disjoint v

theorem symm_disjointCommands (p : Params) : Std.Symm (DisjointCommands p) :=
  ⟨fun _ _ h w v hw hv a ha => h v w hv hw a ha.symm⟩

theorem DisjointCommands.not_inCommandWindow {p : Params} {i j : Instr} (h : DisjointCommands p i j) (a : Nat) :
    ¬ (InCommandWindow p i a ∧ InCommandWindow p j a) := by
  rintro ⟨⟨w, hw, ha⟩, v, hv, ha'⟩
  exact h w v hw hv a ⟨ha, ha'⟩

/-- Settles O49: each byte is overwritten by the commands in turn, which the disjointness lets commute. -/
theorem blockOrderIrrelevant : Obligations.BlockOrderIrrelevant := by
  unfold Obligations.BlockOrderIrrelevant
  intro l l' s hperm hb hwf hl hdisjoint
  have hl₁ : ∀ i ∈ l, i.WellFormed s.params := fun i hi => (hl i hi).1
  obtain ⟨t, ht, hwft, hread⟩ := run_commandsOf l hb hl₁
  obtain ⟨t', ht', hwft', hread'⟩ := run_commandsOf l' hb fun i hi => hl₁ i (hperm.mem_iff.mpr hi)
  refine ⟨t, t', ht, ht', Memory.ext (hwft hwf) (hwft' hwf) fun a => ?_⟩
  rw [hread, hread']
  refine hperm.foldl_eq' (fun i hi j hj v => ?_) _
  obtain rfl | hij := eq_or_ne i j
  · rfl
  · have := symm_disjointCommands s.params
    have hd : DisjointCommands s.params i j := hdisjoint.forall (R := DisjointCommands s.params) hi hj hij
    exact overwriteByte_comm (hd.not_inCommandWindow a) v

/-! ### One completion -/

/-- `t` is what the completion of `i` leaves of `s`: its own value stands in exactly the bytes `landed`, of which it may
leave out only bytes that another unit wrote since `i` was accepted (60_exceptions.md R162; log 18). -/
structure Lands (i : Instr) (landed : List Nat) (s t : State) : Prop where
  own : ∀ a ∈ landed, ∃ v, valueWritten s.params i a = some v ∧ Memory.read t.mem a = some v
  frame : ∀ a, a ∉ landed → Memory.read t.mem a = Memory.read s.mem a
  all : ∀ a v, valueWritten s.params i a = some v → a ∉ s.rivals → a ∈ landed
  told : t.others = announceTo landed s.others
  params : t.params = s.params

/-- The completion of the command in flight lands. -/
theorem hostAwait_lands {s : State} {i : Instr} (hi : s.inFlight = some i) :
    ∃ t, hostAwait s = .next t ∧ Lands i (landedBytes s i) s t := by
  obtain ⟨u, hu, -, -, hparams, hothers, -⟩ := exec_next i s
  have hawait : hostAwait s = .next ((u.settle i s).announce (landedBytes s i)) := by
    unfold hostAwait
    simp only [hi, hu]
  have hread (a : Nat) : Memory.read ((u.settle i s).announce (landedBytes s i)).mem a =
      if a ∈ keptBytes s i then Memory.read s.mem a else (valueWritten s.params i a).or (Memory.read s.mem a) := by
    rw [State.announce_mem, State.read_settle, read_of_exec hu]
  refine ⟨_, hawait, ?_, ?_, ?_, ?_, ?_⟩
  · intro a ha
    obtain ⟨hin, hkept⟩ := mem_landedBytes.mp ha
    obtain ⟨v, hv⟩ := Option.isSome_iff_exists.mp (valueWritten_isSome_iff.mpr hin)
    refine ⟨v, hv, ?_⟩
    rw [hread, if_neg hkept, hv, Option.some_or]
  · intro a ha
    rw [hread]
    split
    next => rfl
    next hkept =>
      have hnone : ¬ (valueWritten s.params i a).isSome = true := fun h =>
        ha (mem_landedBytes.mpr ⟨valueWritten_isSome_iff.mp h, hkept⟩)
      rw [Option.not_isSome_iff_eq_none.mp hnone, Option.none_or]
  · intro a v hv hrival
    refine mem_landedBytes.mpr ⟨valueWritten_isSome_iff.mp (by rw [hv]; rfl), fun hkept => hrival ?_⟩
    obtain ⟨⟨-, h⟩, -⟩ := mem_keptBytes.mp hkept
    exact h
  · rw [State.announce_others, State.settle_others, hothers]
  · rw [State.announce_params, State.settle_params, hparams]

/-- Settles O51: the step of `await` is the completion of the command in flight. -/
theorem completionKeepsOnlyRivalBytes : Obligations.CompletionKeepsOnlyRivalBytes := by
  unfold Obligations.CompletionKeepsOnlyRivalBytes
  intro s i rest hin hi
  obtain ⟨t, ht, hlands⟩ := hostAwait_lands (s := s.setInputs rest) hi
  exact ⟨t, _, (step_of_inputs hin).trans ht, hlands.own, hlands.frame, hlands.all, hlands.told⟩

theorem State.setInputs_of_inputs (s : State) {rest : List HostEvent} (h : s.inputs = rest) : s.setInputs rest = s := by
  subst h
  rfl

/-- A run that completes the command in flight goes on from where it lands. -/
theorem run_await {s : State} {i : Instr} (rest : List HostEvent) (n : Nat) (hi : s.inFlight = some i) :
    ∃ t landed, Lands i landed s t ∧
      Host.Core.run core (n + 1) (s.setInputs (.await :: rest)) = Host.Core.run core n (t.setInputs rest) := by
  obtain ⟨t, ht, hlands⟩ := hostAwait_lands (s := s.setInputs rest) hi
  have hinputs : t.inputs = rest := hostEvent_inputs (e := .await) ht
  refine ⟨t, landedBytes (s.setInputs rest) i, ⟨hlands.own, hlands.frame, hlands.all, hlands.told, hlands.params⟩, ?_⟩
  have hstep : step (s.setInputs (.await :: rest)) = .next t := (step_setInputs s .await rest).trans ht
  rw [t.setInputs_of_inputs hinputs]
  exact run_succ_of_next hstep

/-! ### Two commands in flight -/

/-- What a byte may hold after two commands in flight together have completed, the one writing `v` there and the other `w`:
either value, or the value `before`, where each command that writes the byte left it to a rival. -/
def RaceEnds (before v w after : Option Byte) (rivalOfV rivalOfW : Prop) : Prop :=
  (∃ x, v = some x ∧ after = some x) ∨ (∃ y, w = some y ∧ after = some y) ∨
    (after = before ∧ (v = none ∨ rivalOfV) ∧ (w = none ∨ rivalOfW))

section RaceEnds
variable {before v w after : Option Byte} {rivalOfV rivalOfW : Prop}

theorem RaceEnds.symm (h : RaceEnds before v w after rivalOfV rivalOfW) :
    RaceEnds before w v after rivalOfW rivalOfV := by
  obtain h | h | ⟨h, hv, hw⟩ := h
  · exact .inr (.inl h)
  · exact .inl h
  · exact .inr (.inr ⟨h, hw, hv⟩)

theorem endsWithEither_left (before w : Option Byte) (x : Byte) : EndsWithEither before (some x) w (some x) := by
  cases w with
  | none => exact rfl
  | some y => exact .inl rfl

theorem endsWithEither_right (before v : Option Byte) (y : Byte) : EndsWithEither before v (some y) (some y) := by
  cases v with
  | none => exact rfl
  | some x => exact .inr rfl

/-- With no rival before the two, the race is that of R162. -/
theorem RaceEnds.endsWithEither (h : RaceEnds before v w after rivalOfV rivalOfW) (hv : ¬ rivalOfV) (hw : ¬ rivalOfW) :
    EndsWithEither before v w after := by
  obtain ⟨x, rfl, rfl⟩ | ⟨y, rfl, rfl⟩ | ⟨rfl, hv', hw'⟩ := h
  · exact endsWithEither_left ..
  · exact endsWithEither_right ..
  · obtain rfl := hv'.resolve_right hv
    obtain rfl := hw'.resolve_right hw
    exact rfl

/-- With `first`, completed before `later` was accepted, as the only rival, and of `across` only, `first` does not return
where `later` writes (R177). -/
theorem RaceEnds.endsWithoutSuperseded {first across later : Option Byte}
    (h : RaceEnds (first.or before) across later after rivalOfV rivalOfW) (hv : rivalOfV → first.isSome = true)
    (hw : ¬ rivalOfW) : EndsWithoutSuperseded before first later across after := by
  obtain ⟨x, rfl, rfl⟩ | ⟨y, rfl, rfl⟩ | ⟨rfl, hacross, hlater⟩ := h
  · cases later with
    | none => exact endsWithEither_right ..
    | some y => exact endsWithEither_right before (some y) x
  · exact endsWithEither_left ..
  · obtain rfl := hlater.resolve_right hw
    cases first with
    | none =>
      obtain rfl := hacross.resolve_right fun hr => by cases hv hr
      exact rfl
    | some x => exact endsWithEither_left ..

end RaceEnds

/-- One completion in terms of a byte. -/
theorem Lands.byte {i : Instr} {landed : List Nat} {s t : State} (h : Lands i landed s t) (a : Nat) :
    (a ∈ landed ∧ ∃ v, valueWritten s.params i a = some v ∧ Memory.read t.mem a = some v) ∨
      (a ∉ landed ∧ Memory.read t.mem a = Memory.read s.mem a ∧ (valueWritten s.params i a = none ∨ a ∈ s.rivals)) := by
  by_cases ha : a ∈ landed
  · exact .inl ⟨ha, h.own a ha⟩
  · refine .inr ⟨ha, h.frame a ha, ?_⟩
    cases hv : valueWritten s.params i a with
    | none => exact .inl rfl
    | some v => exact .inr (not_not.mp fun hrival => ha (h.all a v hv hrival))

/-- Two completions, of `f` and then of `g`, to whose unit the first one's bytes were told: where `g` leaves a byte that `f`
did not land in, it leaves it to an earlier rival. -/
theorem raceEnds_of_lands {f g : Instr} {landed landed' rivals : List Nat} {s t t' u : State} (h : Lands f landed s t)
    (h' : Lands g landed' t' u) (hmem : t'.mem = t.mem) (hparams : t'.params = t.params)
    (hrivals : t'.rivals = landed ++ rivals) (a : Nat) :
    RaceEnds (Memory.read s.mem a) (valueWritten s.params f a) (valueWritten s.params g a) (Memory.read u.mem a)
      (a ∈ s.rivals) (a ∈ rivals) := by
  have hfirst := h.byte a
  have hsecond := h'.byte a
  rw [hparams, h.params, hmem, hrivals, List.mem_append] at hsecond
  obtain ⟨-, hlast⟩ | ⟨-, hlast, hleft⟩ := hsecond
  · exact .inr (.inl hlast)
  rw [hlast]
  obtain ⟨-, hown⟩ | ⟨ha, hsame, hleft'⟩ := hfirst
  · exact .inl hown
  · exact .inr (.inr ⟨hsame, hleft', hleft.imp_right fun hmem => hmem.resolve_left ha⟩)

/-- The unit addressed has `f` in flight, unit `k` of the others has `g`, each with the rivals so far. -/
structure InRace (s : State) (k : Nat) (f g : Instr) (rivalsF rivalsG : List Nat) : Prop where
  addressed : s.inFlight = some f ∧ s.rivals = rivalsF
  other : ∃ u, s.others[k]? = some u ∧ u.inFlight = some g ∧ u.rivals = rivalsG

/-- The run of `n` events `events` completes `f` and `g`, each byte ending as their race may end. -/
def RaceRuns (s : State) (f g : Instr) (rivalsF rivalsG : List Nat) (n : Nat) (events : List HostEvent) : Prop :=
  ∃ t : State, Host.Core.run core n (s.setInputs events) = .next t ∧
    ∀ a, RaceEnds (Memory.read s.mem a) (valueWritten s.params f a) (valueWritten s.params g a) (Memory.read t.mem a)
      (a ∈ rivalsF) (a ∈ rivalsG)

section Race
variable {s : State} {k : Nat} {f g : Instr} {rivalsF rivalsG : List Nat} (h : InRace s k f g rivalsF rivalsG)
  (rest : List HostEvent)
include h

/-- The unit addressed completes first. -/
theorem raceRuns_addressed_first : RaceRuns s f g rivalsF rivalsG 3 (.await :: .select k :: .await :: rest) := by
  obtain ⟨⟨hf, rfl⟩, u, hu, hg, rfl⟩ := h
  obtain ⟨t, landed, ht, hrun⟩ := run_await (.select k :: .await :: rest) 2 hf
  have hu' : t.others[k]? = some { u with rivals := landed ++ u.rivals } := by
    rw [ht.told, announceTo_getElem?, hu, Option.map_some, if_pos (by rw [hg]; rfl)]
  obtain ⟨v, landed', hv, hrun'⟩ := run_await (s := t.swap k { u with rivals := landed ++ u.rivals }) rest 0 hg
  exact ⟨_, hrun.trans ((run_select (.await :: rest) 1 hu').trans hrun'),
    fun a => raceEnds_of_lands (u := v) ht hv rfl rfl rfl a⟩

/-- Turning to the other unit exchanges the parts of the two commands. -/
theorem inRace_swap : ∃ u, s.others[k]? = some u ∧ InRace (s.swap k u) k g f rivalsG rivalsF := by
  obtain ⟨haddressed, u, hu, hother⟩ := h
  obtain ⟨hk, -⟩ := List.getElem?_eq_some_iff.mp hu
  exact ⟨u, hu, hother, s.unit, List.getElem?_set_self hk, haddressed⟩

/-- The unit not addressed completes first. -/
theorem raceRuns_other_first : RaceRuns s f g rivalsF rivalsG 4 (.select k :: .await :: .select k :: .await :: rest) := by
  obtain ⟨u, hu, hrace⟩ := inRace_swap h
  obtain ⟨t, ht, hends⟩ := raceRuns_addressed_first hrace rest
  exact ⟨t, (run_select _ 3 hu).trans ht, fun a => (hends a).symm⟩

end Race

/-! ### The races of R162 and R177 -/

section Scenario
variable {s : State} {k : Nat} {u : UnitRegs} {i j : Instr}
  (hb : s.busy = 0) (hu : s.others[k]? = some u) (hidle : u.inFlight = none)
  (hi : i.WellFormed s.params) (hj : j.WellFormed s.params)
include hb hu hi

/-- Command `i` is accepted and the host turns to another unit. -/
theorem run_present_select (rest : List HostEvent) (n : Nat) :
    Host.Core.run core (n + 2) (s.setInputs (.present (encode s.params i) :: .select k :: rest)) =
      Host.Core.run core n (((s.accept i).swap k u).setInputs rest) :=
  (run_present _ (n + 1) hb hi).trans (run_select (s := s.accept i) rest n hu)

include hidle hj

/-- Commands `i` and `j` are accepted on two idle units. -/
theorem run_to_race : ∃ x : State, x.params = s.params ∧ x.mem = s.mem ∧ InRace x k j i [] [] ∧ ∀ rest n,
    Host.Core.run core (n + 3) (s.setInputs (.present (encode s.params i) :: .select k ::
        .present (encode s.params j) :: rest)) = Host.Core.run core n (x.setInputs rest) := by
  have hb' : ((s.accept i).swap k u).busy = 0 := (State.busy_eq_zero _).mpr hidle
  obtain ⟨hk, -⟩ := List.getElem?_eq_some_iff.mp hu
  have hother : (((s.accept i).swap k u).accept j).others[k]? = some (s.accept i).unit := List.getElem?_set_self hk
  refine ⟨((s.accept i).swap k u).accept j, rfl, rfl, ⟨⟨rfl, rfl⟩, _, hother, rfl, rfl⟩, fun rest n => ?_⟩
  exact (run_present_select hb hu hi _ (n + 1)).trans (run_present (s := (s.accept i).swap k u) rest n hb' hj)

/-- While `i` is in flight, another unit performs `j` and accepts `c`; the bytes of `j` are then rivals of `i`. -/
theorem run_to_race_after_command {c : Instr} (hc : c.WellFormed s.params) : ∃ x : State, x.params = s.params ∧
    (∀ a, Memory.read x.mem a = (valueWritten s.params j a).or (Memory.read s.mem a)) ∧
    InRace x k c i [] (windowBytes s.params j) ∧ ∀ rest n,
      Host.Core.run core (n + 4) (s.setInputs (.present (encode s.params i) :: .select k ::
          .command (encode s.params j) :: .present (encode s.params c) :: rest)) =
        Host.Core.run core n (x.setInputs rest) := by
  have hb' : ((s.accept i).swap k u).busy = 0 := (State.busy_eq_zero _).mpr hidle
  obtain ⟨hk, -⟩ := List.getElem?_eq_some_iff.mp hu
  obtain ⟨t, ht, -, -, hparams, hothers, -⟩ := exec_next j ((s.accept i).swap k u)
  have hother : (announceTo (windowBytes s.params j) t.others)[k]? =
      some { (s.accept i).unit with rivals := windowBytes s.params j } := by
    rw [announceTo_getElem?, hothers, State.swap_others, State.accept_others, List.getElem?_set_self hk]
    simp [State.unit]
  have hbt : (t.announce (windowBytes s.params j)).busy = 0 := by rw [State.announce_busy, exec_busy ht]
  refine ⟨(t.announce (windowBytes s.params j)).accept c, hparams, fun a => ?_,
    ⟨⟨rfl, rfl⟩, _, hother, rfl, rfl⟩, fun rest n => ?_⟩
  · rw [State.accept_mem, State.announce_mem]
    exact read_of_exec ht a
  have hcommand := run_command (.present (encode s.params c) :: rest) (n + 1) hb' hj ht
  have hpresent := run_present (s := t.announce (windowBytes s.params j)) rest n hbt (hparams ▸ hc)
  rw [State.announce_params, hparams] at hpresent
  exact (run_present_select hb hu hi _ (n + 2)).trans (hcommand.trans hpresent)

end Scenario

/-- Settles O50: the two are accepted, and their race has no earlier rival. -/
theorem unitsRaceByteByByte : Obligations.UnitsRaceByteByByte := by
  unfold Obligations.UnitsRaceByteByByte
  intro s k u i j rest hb hu hidle hi hj
  obtain ⟨x, hparams, hmem, hrace, hrun⟩ := run_to_race hb hu hidle hi hj
  have race {n : Nat} {events : List HostEvent} (h : RaceRuns x j i [] [] n events) :
      ∃ t : State, Host.Core.run core n (x.setInputs events) = .next t ∧
        ∀ a, EndsWithEither (Memory.read s.mem a) (valueWritten s.params i a) (valueWritten s.params j a)
          (Memory.read t.mem a) := by
    obtain ⟨t, ht, hends⟩ := h
    rw [hparams, hmem] at hends
    exact ⟨t, ht, fun a => (hends a).symm.endsWithEither List.not_mem_nil List.not_mem_nil⟩
  constructor
  · obtain ⟨t, ht, hends⟩ := race (raceRuns_other_first hrace rest)
    exact ⟨t, (hrun _ 4).trans ht, hends⟩
  · obtain ⟨t, ht, hends⟩ := race (raceRuns_addressed_first hrace rest)
    exact ⟨t, (hrun _ 3).trans ht, hends⟩

/-- Settles O52: `j` stands in its bytes before the race of `i` and `k`, in which it is a rival of `i` only. -/
theorem supersededValueNeverReturns : Obligations.SupersededValueNeverReturns := by
  unfold Obligations.SupersededValueNeverReturns
  intro s n u i j k rest hb hu hidle hi hj hk
  obtain ⟨x, hparams, hmem, hrace, hrun⟩ := run_to_race_after_command hb hu hidle hi hj hk
  have race {m : Nat} {events : List HostEvent} (h : RaceRuns x k i [] (windowBytes s.params j) m events) :
      ∃ t : State, Host.Core.run core m (x.setInputs events) = .next t ∧
        ∀ a, EndsWithoutSuperseded (Memory.read s.mem a) (valueWritten s.params j a) (valueWritten s.params k a)
          (valueWritten s.params i a) (Memory.read t.mem a) := by
    obtain ⟨t, ht, hends⟩ := h
    simp only [hparams, hmem] at hends
    exact ⟨t, ht, fun a => (hends a).symm.endsWithoutSuperseded mem_windowBytes_iff_valueWritten.mp List.not_mem_nil⟩
  constructor
  · obtain ⟨t, ht, hends⟩ := race (raceRuns_other_first hrace rest)
    exact ⟨t, (hrun _ 4).trans ht, hends⟩
  · obtain ⟨t, ht, hends⟩ := race (raceRuns_addressed_first hrace rest)
    exact ⟨t, (hrun _ 3).trans ht, hends⟩

end Machine
end Sys2Proof
end
